-- ==== Sys2Proof/Word.lean ====
section
/-! DEFINITION. The value domains the block computes on (00_scope.md R12, 10_state.md R26 to R31).
Bit 0 is the least significant bit of every value (R8). -/

namespace Sys2Proof

/-- A 64-bit machine word, the width of the request and result buses (R6, R12). -/
abbrev Word := BitVec 64

/-- PhysAddr: a byte address in physical memory (R26). -/
abbrev PA := BitVec 56

/-- VirtAddr in its stored, narrow form (R27). -/
abbrev VA := BitVec 39

/-- PhysPageNum: the index of a 4 KiB physical page (R28). -/
abbrev PPN := BitVec 44

/-- VirtPageNum: the index of a 4 KiB virtual page (R29). -/
abbrev VPN := BitVec 27

/-- One 9-bit level index of a VirtPageNum (R29). -/
abbrev LevelIndex := BitVec 9

/-- The 12-bit page offset of an address (R130). -/
abbrev PageOffset := BitVec 12

/-- Flag set of a page-table entry; every byte is one (R31). -/
abbrev Flags := BitVec 8

/-- PageTableEntry: every 64-bit word is one (R30). -/
abbrev PTE := BitVec 64

/-- The 5-bit operation code of a request (R71). -/
abbrev OpCode := BitVec 5

/-- A byte of the host context's memory (R41). -/
abbrev Byte := BitVec 8

end Sys2Proof
end

