-- ==== Sys2Proof/Machine/Operands.lean ====
section
/-! DEFINITION. The operand and result forms of the buses (30_encoding.md R73, R74, R76, R83). An
operand is the low slice of its bus and nothing else; a result is zero extended onto `y`. -/

namespace Sys2Proof.Machine

/-- A PA operand: `a[55:0]` (R74). -/
def busPA (a : Word) : PA := a.extractLsb' 0 56

/-- A VA operand in stored form: `a[38:0]` (R27, R74). -/
def busVA (a : Word) : VA := a.extractLsb' 0 39

/-- A PPN operand: `a[43:0]` (R74). -/
def busPPN (a : Word) : PPN := a.extractLsb' 0 44

/-- A VPN operand: `a[26:0]` (R74). -/
def busVPN (a : Word) : VPN := a.extractLsb' 0 27

/-- A flag-set operand: `b[7:0]` (R74). -/
def busFlags (b : Word) : Flags := b.extractLsb' 0 8

/-- A typed value on a 64-bit bus, zero extended (R76, R105). -/
def onBus {n : Nat} (v : BitVec n) : Word := v.setWidth 64

/-- A truth value on the result bus: 1 for true, 0 for false (R76). -/
def boolOnBus (t : Bool) : Word := if t then 1#64 else 0#64

end Sys2Proof.Machine
end

