-- ==== Sys2Proof/Syntax.lean ====
section
/-! DEFINITION. Requests, the block's operations as decoded terms, and the lines of a host program
(30_encoding.md R71, R80, R84, R85; 20_memory.md R53 to R61). -/

namespace Sys2Proof

/-- A request `(op, a, b)` as it stands on the block's input buses (R71). -/
structure Request where
  op : OpCode
  a : Word
  b : Word
  deriving DecidableEq, Repr

/-- One constructor per row of spec/opcode_table.json. A constructor carries exactly the operand bits
its operation reads (R73, R74): the widths of the fields are the operand formats, so every term is
well formed by its type. -/
inductive Instr where
  /-- PA_FROM_WORD, op 0x00 (R100). -/
  | paFromWord (w : Word)
  /-- PPN_FROM_WORD, op 0x01 (R101). -/
  | ppnFromWord (w : Word)
  /-- VA_FROM_WORD, op 0x02 (R102). -/
  | vaFromWord (w : Word)
  /-- VPN_FROM_WORD, op 0x03 (R103). -/
  | vpnFromWord (w : Word)
  /-- VA_TO_WORD, op 0x04 (R104). -/
  | vaToWord (v : VA)
  /-- TOKEN_ROOT_PPN, op 0x05 (R110). -/
  | tokenRootPpn (t : Word)
  /-- PA_PAGE_OFFSET, op 0x06 (R130). -/
  | paPageOffset (v : PA)
  /-- PA_ALIGNED, op 0x07 (R131). -/
  | paAligned (v : PA)
  /-- VA_PAGE_OFFSET, op 0x08 (R132). -/
  | vaPageOffset (v : VA)
  /-- VA_ALIGNED, op 0x09 (R133). -/
  | vaAligned (v : VA)
  /-- PA_FLOOR, op 0x0A (R136). -/
  | paFloor (v : PA)
  /-- PA_CEIL, op 0x0B (R137). -/
  | paCeil (v : PA)
  /-- PA_TO_PPN, op 0x0C (R138). -/
  | paToPpn (v : PA)
  /-- PPN_TO_PA, op 0x0D (R139). -/
  | ppnToPa (p : PPN)
  /-- VA_FLOOR, op 0x0E (R142). -/
  | vaFloor (v : VA)
  /-- VA_CEIL, op 0x0F (R143). -/
  | vaCeil (v : VA)
  /-- VA_TO_VPN, op 0x10 (R144). -/
  | vaToVpn (v : VA)
  /-- VPN_TO_VA, op 0x11 (R145). -/
  | vpnToVa (p : VPN)
  /-- VPN_INDEX0, op 0x12 (R150). -/
  | vpnIndex0 (p : VPN)
  /-- VPN_INDEX1, op 0x13 (R151). -/
  | vpnIndex1 (p : VPN)
  /-- VPN_INDEX2, op 0x14 (R152). -/
  | vpnIndex2 (p : VPN)
  /-- PTE_NEW, op 0x15, the one operation of format AB (R180). -/
  | pteNew (p : PPN) (f : Flags)
  /-- PTE_EMPTY, op 0x16, the one operation of format N (R181). -/
  | pteEmpty
  /-- PTE_PPN, op 0x17 (R182). -/
  | ptePpn (e : PTE)
  /-- PTE_FLAGS, op 0x18 (R183). -/
  | pteFlags (e : PTE)
  /-- PTE_IS_VALID, op 0x19 (R184). -/
  | pteIsValid (e : PTE)
  /-- Reserved row 1101x: op 0x1A and 0x1B, `x` the low code bit (R81). -/
  | reserved1101x (x : BitVec 1)
  /-- Reserved row 111xx: op 0x1C to 0x1F, `x` the two low code bits (R81). -/
  | reserved111xx (x : BitVec 2)
  deriving DecidableEq, Repr

/-! ## The host's lines -/

/-- The name of a result: `rN` of a line (R84), or the intermediate `t` of the pseudo-instruction
that binds `rN` (R85). -/
inductive ResultName where
  | r (n : Nat)
  | t (n : Nat)
  deriving DecidableEq, Repr

/-- An operand of a host line: a literal bus value or the name of an earlier result (R84). -/
inductive Operand where
  | lit (w : Word)
  | res (x : ResultName)
  deriving DecidableEq, Repr

/-- One line of a host run. `request` is a line of R84 with its mnemonic replaced by its code. The
others are what the host context does around the block (20_memory.md section 3), and the last three
are the invalidation and the processor's side of R47, R235 and R236. A table is named by its place in
the order in which tables were made. -/
inductive Line where
  /-- Issue the request `(op, a, b)` and bind its result (R84). -/
  | request (dest : ResultName) (op : OpCode) (a b : Operand)
  /-- Bind `MemRead(base + 8 * index, 8)` (R11, R50; 95_test_vectors.md P4). -/
  | memRead (dest : ResultName) (base index : Operand)
  /-- Make an owning table: `construct()` (R59). -/
  | construct
  /-- Make a view from a root token: `from_root_token(token)` (R58). -/
  | fromRootToken (token : Word)
  /-- `map(vpn, ppn, flags)` on a table (R54). -/
  | map (table : Nat) (vpn : VPN) (ppn : PPN) (flags : Flags)
  /-- `unmap(vpn)` on a table (R56). -/
  | unmap (table : Nat) (vpn : VPN)
  /-- Bind the result of `translate(vpn)` on a table (R57). -/
  | translate (dest : ResultName) (table : Nat) (vpn : VPN)
  /-- Destroy a table, releasing its frames (R60). -/
  | destroy (table : Nat)
  /-- Invalidate stale translations (R47). -/
  | invalidate
  /-- The processor uses a translation of `vpn`; `pick` says which of the admitted ones (R47, R235). -/
  | processorUse (dest : ResultName) (table : Nat) (vpn : VPN) (pick : Nat)
  /-- The processor writes A and D in the stored leaf of `vpn` (R236). -/
  | processorStatus (table : Nat) (vpn : VPN) (accessed dirty : Bool)
  deriving DecidableEq, Repr

/-! ## The assembler's lines -/

/-- The single-bit flags of a PTE (42_pte_codec.md R170). -/
inductive Flag where
  | V | R | W | X | U | G | A | D
  deriving DecidableEq, Repr

/-- The pseudo-instructions of R85. -/
inductive Pseudo where
  | pteLeaf | pteNode | canon | ptePa | vaOfPage
  deriving DecidableEq, Repr

/-- What stands in a line's mnemonic place: an operation of R80 by its code, or a pseudo-instruction. -/
inductive AsmHead where
  | core (op : OpCode)
  | pseudo (p : Pseudo)
  deriving DecidableEq, Repr

/-- An operand as written: a numeric literal, a result name, or `|`-joined flag names (R84). -/
inductive AsmOperand where
  | num (n : Nat)
  | name (n : Nat)
  | flags (fs : List Flag)
  deriving DecidableEq, Repr

/-- A written line `rN = MNEMONIC operands` (R84). -/
structure AsmLine where
  dest : Nat
  head : AsmHead
  operands : List AsmOperand
  deriving DecidableEq, Repr

end Sys2Proof
end

