-- ==== Sys2Proof/Decode.lean ====
section
/-! DEFINITION. The opcode map, the decoder and the encoder (30_encoding.md R71, R73, R74, R80 to R83).
Decoding is total on requests, the reserved codes included; the operand slices are those of
Machine/Operands.lean. -/

namespace Sys2Proof

open Machine

/-- The operand formats of R73. -/
inductive OperandFormat where
  | N | A | AB
  deriving DecidableEq, Repr

/-- A row of spec/opcode_table.json: its code matches when `code &&& mask = pattern`. -/
structure OpRow where
  mnemonic : String
  format : OperandFormat
  pattern : OpCode
  mask : OpCode
  deriving DecidableEq, Repr

/-- The rows of 40_address_masking.md. -/
def maskingRows : List OpRow :=
  [⟨"PA_FROM_WORD", .A, 0x00#5, 0x1f#5⟩, ⟨"PPN_FROM_WORD", .A, 0x01#5, 0x1f#5⟩,
   ⟨"VA_FROM_WORD", .A, 0x02#5, 0x1f#5⟩, ⟨"VPN_FROM_WORD", .A, 0x03#5, 0x1f#5⟩,
   ⟨"VA_TO_WORD", .A, 0x04#5, 0x1f#5⟩, ⟨"TOKEN_ROOT_PPN", .A, 0x05#5, 0x1f#5⟩]

/-- The rows of 41_page_arithmetic.md. -/
def pageRows : List OpRow :=
  [⟨"PA_PAGE_OFFSET", .A, 0x06#5, 0x1f#5⟩, ⟨"PA_ALIGNED", .A, 0x07#5, 0x1f#5⟩,
   ⟨"VA_PAGE_OFFSET", .A, 0x08#5, 0x1f#5⟩, ⟨"VA_ALIGNED", .A, 0x09#5, 0x1f#5⟩,
   ⟨"PA_FLOOR", .A, 0x0a#5, 0x1f#5⟩, ⟨"PA_CEIL", .A, 0x0b#5, 0x1f#5⟩,
   ⟨"PA_TO_PPN", .A, 0x0c#5, 0x1f#5⟩, ⟨"PPN_TO_PA", .A, 0x0d#5, 0x1f#5⟩,
   ⟨"VA_FLOOR", .A, 0x0e#5, 0x1f#5⟩, ⟨"VA_CEIL", .A, 0x0f#5, 0x1f#5⟩,
   ⟨"VA_TO_VPN", .A, 0x10#5, 0x1f#5⟩, ⟨"VPN_TO_VA", .A, 0x11#5, 0x1f#5⟩,
   ⟨"VPN_INDEX0", .A, 0x12#5, 0x1f#5⟩, ⟨"VPN_INDEX1", .A, 0x13#5, 0x1f#5⟩,
   ⟨"VPN_INDEX2", .A, 0x14#5, 0x1f#5⟩]

/-- The rows of 42_pte_codec.md. -/
def pteRows : List OpRow :=
  [⟨"PTE_NEW", .AB, 0x15#5, 0x1f#5⟩, ⟨"PTE_EMPTY", .N, 0x16#5, 0x1f#5⟩,
   ⟨"PTE_PPN", .A, 0x17#5, 0x1f#5⟩, ⟨"PTE_FLAGS", .A, 0x18#5, 0x1f#5⟩,
   ⟨"PTE_IS_VALID", .A, 0x19#5, 0x1f#5⟩]

/-- The two reserved patterns (R81). -/
def reservedRows : List OpRow :=
  [⟨"(reserved)", .N, 0x1a#5, 0x1e#5⟩, ⟨"(reserved)", .N, 0x1c#5, 0x1c#5⟩]

/-- The opcode map of R80. -/
def opcodeTable : List OpRow := maskingRows ++ pageRows ++ pteRows ++ reservedRows

/-- A row matches a code: exact match on the bits of its mask (R80). -/
def OpRow.hits (row : OpRow) (op : OpCode) : Bool := op &&& row.mask == row.pattern

/-- The code an instruction is encoded with (R80). -/
def Instr.opcode : Instr → OpCode
  | .paFromWord _ => 0x00#5
  | .ppnFromWord _ => 0x01#5
  | .vaFromWord _ => 0x02#5
  | .vpnFromWord _ => 0x03#5
  | .vaToWord _ => 0x04#5
  | .tokenRootPpn _ => 0x05#5
  | .paPageOffset _ => 0x06#5
  | .paAligned _ => 0x07#5
  | .vaPageOffset _ => 0x08#5
  | .vaAligned _ => 0x09#5
  | .paFloor _ => 0x0a#5
  | .paCeil _ => 0x0b#5
  | .paToPpn _ => 0x0c#5
  | .ppnToPa _ => 0x0d#5
  | .vaFloor _ => 0x0e#5
  | .vaCeil _ => 0x0f#5
  | .vaToVpn _ => 0x10#5
  | .vpnToVa _ => 0x11#5
  | .vpnIndex0 _ => 0x12#5
  | .vpnIndex1 _ => 0x13#5
  | .vpnIndex2 _ => 0x14#5
  | .pteNew _ _ => 0x15#5
  | .pteEmpty => 0x16#5
  | .ptePpn _ => 0x17#5
  | .pteFlags _ => 0x18#5
  | .pteIsValid _ => 0x19#5
  | .reserved1101x x => 0b1101#4 ++ x
  | .reserved111xx x => 0b111#3 ++ x

/-- The mnemonic of an instruction's row. -/
def Instr.mnemonic : Instr → String
  | .paFromWord _ => "PA_FROM_WORD"
  | .ppnFromWord _ => "PPN_FROM_WORD"
  | .vaFromWord _ => "VA_FROM_WORD"
  | .vpnFromWord _ => "VPN_FROM_WORD"
  | .vaToWord _ => "VA_TO_WORD"
  | .tokenRootPpn _ => "TOKEN_ROOT_PPN"
  | .paPageOffset _ => "PA_PAGE_OFFSET"
  | .paAligned _ => "PA_ALIGNED"
  | .vaPageOffset _ => "VA_PAGE_OFFSET"
  | .vaAligned _ => "VA_ALIGNED"
  | .paFloor _ => "PA_FLOOR"
  | .paCeil _ => "PA_CEIL"
  | .paToPpn _ => "PA_TO_PPN"
  | .ppnToPa _ => "PPN_TO_PA"
  | .vaFloor _ => "VA_FLOOR"
  | .vaCeil _ => "VA_CEIL"
  | .vaToVpn _ => "VA_TO_VPN"
  | .vpnToVa _ => "VPN_TO_VA"
  | .vpnIndex0 _ => "VPN_INDEX0"
  | .vpnIndex1 _ => "VPN_INDEX1"
  | .vpnIndex2 _ => "VPN_INDEX2"
  | .pteNew _ _ => "PTE_NEW"
  | .pteEmpty => "PTE_EMPTY"
  | .ptePpn _ => "PTE_PPN"
  | .pteFlags _ => "PTE_FLAGS"
  | .pteIsValid _ => "PTE_IS_VALID"
  | .reserved1101x _ => "(reserved)"
  | .reserved111xx _ => "(reserved)"

/-- The decoder: `op` selects the operation by exact match on all five bits (R80); the operands are
the slices of R74; a reserved code reads no operand (R81). -/
def decode (q : Request) : Instr :=
  match q.op with
  | 0x00#5 => .paFromWord q.a
  | 0x01#5 => .ppnFromWord q.a
  | 0x02#5 => .vaFromWord q.a
  | 0x03#5 => .vpnFromWord q.a
  | 0x04#5 => .vaToWord (busVA q.a)
  | 0x05#5 => .tokenRootPpn q.a
  | 0x06#5 => .paPageOffset (busPA q.a)
  | 0x07#5 => .paAligned (busPA q.a)
  | 0x08#5 => .vaPageOffset (busVA q.a)
  | 0x09#5 => .vaAligned (busVA q.a)
  | 0x0a#5 => .paFloor (busPA q.a)
  | 0x0b#5 => .paCeil (busPA q.a)
  | 0x0c#5 => .paToPpn (busPA q.a)
  | 0x0d#5 => .ppnToPa (busPPN q.a)
  | 0x0e#5 => .vaFloor (busVA q.a)
  | 0x0f#5 => .vaCeil (busVA q.a)
  | 0x10#5 => .vaToVpn (busVA q.a)
  | 0x11#5 => .vpnToVa (busVPN q.a)
  | 0x12#5 => .vpnIndex0 (busVPN q.a)
  | 0x13#5 => .vpnIndex1 (busVPN q.a)
  | 0x14#5 => .vpnIndex2 (busVPN q.a)
  | 0x15#5 => .pteNew (busPPN q.a) (busFlags q.b)
  | 0x16#5 => .pteEmpty
  | 0x17#5 => .ptePpn q.a
  | 0x18#5 => .pteFlags q.a
  | 0x19#5 => .pteIsValid q.a
  | 0x1a#5 => .reserved1101x 0#1
  | 0x1b#5 => .reserved1101x 1#1
  | op => .reserved111xx (op.extractLsb' 0 2)

/-- The operand buses an instruction is encoded with: operand bits in the low slice, every bit the
operation does not read 0 (a choice R75 allows). -/
def Instr.buses : Instr → Word × Word
  | .paFromWord w | .ppnFromWord w | .vaFromWord w | .vpnFromWord w | .tokenRootPpn w => (w, 0)
  | .ptePpn e | .pteFlags e | .pteIsValid e => (e, 0)
  | .paPageOffset v | .paAligned v | .paFloor v | .paCeil v | .paToPpn v => (onBus v, 0)
  | .vaToWord v | .vaPageOffset v | .vaAligned v | .vaFloor v | .vaCeil v | .vaToVpn v => (onBus v, 0)
  | .ppnToPa p => (onBus p, 0)
  | .vpnToVa p | .vpnIndex0 p | .vpnIndex1 p | .vpnIndex2 p => (onBus p, 0)
  | .pteNew p f => (onBus p, onBus f)
  | .pteEmpty | .reserved1101x _ | .reserved111xx _ => (0, 0)

/-- The encoder: the request of an instruction. -/
def encode (i : Instr) : Request := { op := i.opcode, a := i.buses.1, b := i.buses.2 }

/-! ## A request as one number

The block has ports, not an instruction word (R71). The number of a request is the concatenation
`(b, a, op)` with `op` lowest: bits 4:0, 68:5 and 132:69 (DESIGN CHOICE, log entry 3). -/

/-- Bits of a request: 5 + 64 + 64 (R71). -/
abbrev requestBits : Nat := 133

/-- Why a number is no request. -/
inductive DecodeError where
  /-- It has a bit above the 133 of a request. -/
  | tooWide
  deriving DecidableEq, Repr

/-- The request of a number: `op` in bits 4:0, `a` in bits 68:5, `b` in bits 132:69. -/
def Request.ofNumber (w : Nat) : Request :=
  { op := BitVec.ofNat 5 w, a := BitVec.ofNat 64 (w / 2 ^ 5), b := BitVec.ofNat 64 (w / 2 ^ 69) }

/-- The number of a request. -/
def Request.number (q : Request) : Nat := q.op.toNat + 2 ^ 5 * q.a.toNat + 2 ^ 69 * q.b.toNat

/-- The decoder on numbers: total, and it rejects by name what is wider than a request. -/
def decodeNumber (w : Nat) : Except DecodeError Instr :=
  if w < 2 ^ requestBits then .ok (decode (Request.ofNumber w)) else .error .tooWide

/-- The instruction read from the `nbits` low bits of `w`, every bit above them 0. -/
def decodeTableWord (nbits w : Nat) : Option Instr :=
  match decodeNumber (w % 2 ^ nbits) with
  | .ok i => some i
  | .error _ => none

end Sys2Proof
end

