-- ==== Sys2Proof/Config.lean ====
section
/-! DEFINITION. The implementation parameters of the block (00_scope.md R6, R7). -/

namespace Sys2Proof

/-- The block's one open parameter (R7, R231). It is fixed when the block is built; a claim meant for
every build holds for both values. -/
structure Config where
  /-- `CEIL_ZERO_FAULTS`: what the ceil operations do on a zero operand (R134). -/
  ceilZeroFaults : Bool
  deriving DecidableEq, Repr

namespace Config

/-- The spec's default build: `CEIL_ZERO_FAULTS = false` (R7). -/
def default : Config := { ceilZeroFaults := false }

/-! The fixed parameters of R6. -/

/-- `XLEN`. -/
abbrev xlen : Nat := 64
/-- `PA_BITS`. -/
abbrev paBits : Nat := 56
/-- `VA_BITS`. -/
abbrev vaBits : Nat := 39
/-- `PAGE_BITS`. -/
abbrev pageBits : Nat := 12
/-- `PPN_BITS`. -/
abbrev ppnBits : Nat := 44
/-- `VPN_BITS`. -/
abbrev vpnBits : Nat := 27
/-- `LEVELS`. -/
abbrev levels : Nat := 3
/-- `IDX_BITS`. -/
abbrev idxBits : Nat := 9
/-- `ENTRIES`. -/
abbrev entries : Nat := 512
/-- `PTE_BYTES`. -/
abbrev pteBytes : Nat := 8
/-- `FLAG_BITS`. -/
abbrev flagBits : Nat := 8
/-- `PTE_PPN_LO`. -/
abbrev ptePpnLo : Nat := 10
/-- `PTE_PPN_HI`. -/
abbrev ptePpnHi : Nat := 53
/-- `TOKEN_PPN_BITS`. -/
abbrev tokenPpnBits : Nat := 44

/-- Bytes in a page, 2^12 (R6). -/
abbrev pageSize : Nat := 4096

/-- Bytes in the physical address space, 2^56 (R32). -/
abbrev physBytes : Nat := 2 ^ paBits

end Config

end Sys2Proof
end

