-- ==== Sys2Proof/Machine/State.lean ====
section
/-! DEFINITION. The state: the block's interface (30_encoding.md R71, R72) and the host context that
drives it (20_memory.md section 3, 30_encoding.md R84, 70_reset_and_hazards.md R239). The block itself
holds nothing (10_state.md R20 to R24, R33); log entry 1. -/

namespace Sys2Proof.Machine

/-- The fault codes of R78. Codes 5, 6 and 7 are never produced, so they have no constructor (R205). -/
inductive FaultCode where
  /-- fcode 1: a reserved `op` (R201). -/
  | illegalOp
  /-- fcode 2: a conversion that requires alignment, on a non-zero page offset (R202). -/
  | misaligned
  /-- fcode 3: a ceil past the top page (R203). -/
  | ceilOverflow
  /-- fcode 4: a ceil of zero in a `CEIL_ZERO_FAULTS` build (R204). -/
  | ceilZero
  deriving DecidableEq, Repr

/-- A response: a 64-bit result, or a fault that carries no value (R72, R77). -/
inductive Response where
  | result (y : Word)
  | fault (c : FaultCode)
  deriving DecidableEq, Repr

/-- What a result name is bound to: a 64-bit word, or the absent result of translate (R57). -/
inductive Value where
  | word (w : Word)
  | absent
  deriving DecidableEq, Repr

/-- A table made by construct owns its frames; a view made from a root token owns nothing (R58, R59). -/
inductive TableKind where
  | owner
  | view
  deriving DecidableEq, Repr

/-- A page table of the host (R58 to R60). -/
structure Table where
  root : PPN
  owned : List PPN
  kind : TableKind
  deriving DecidableEq, Repr

/-- An old translation the processor may still use (R47): the leaf entry `vpn` had under `root` before
a PTE write of map or unmap, absent where it had none. -/
structure Stale where
  root : PPN
  vpn : VPN
  old : Option PTE
  deriving DecidableEq, Repr

/-- Where a host run stands (R239). -/
inductive Status where
  /-- Lines are still to be issued, or none has been placed. -/
  | running
  /-- The last line ended without a fault. -/
  | succeeded
  /-- A request was answered with a fault: the whole-system halt of R207. -/
  | failed (c : FaultCode)
  deriving DecidableEq, Repr

/-- The host's own fatal conditions (R208). -/
inductive HaltReason where
  /-- The allocator had no frame for construct or a creating walk (R53, R59). -/
  | allocatorExhausted
  /-- map of a page whose leaf is already valid (R54). -/
  | mapOfValidLeaf
  /-- unmap through a missing intermediate node (R56). -/
  | unmapThroughMissingNode
  /-- unmap of a page whose leaf is invalid (R56). -/
  | unmapOfInvalidLeaf
  deriving DecidableEq, Repr

/-- Bytes of physical memory as (address, byte) pairs in one canonical form (`Memory.wf`): addresses
rising, no entry equal to what an unlisted address reads as. -/
abbrev Memory := List Host.Cell

/-- The machine. No field has a function type. -/
structure State where
  /-- The build parameter (R7, R231); no step changes it. -/
  config : Config
  /-- The request buses: the request last issued, held by the host (R71, R200). -/
  request : Option Request
  /-- The response to it (R72). -/
  response : Option Response
  /-- The host's lines not yet issued (R84). -/
  program : List Line
  /-- The results bound so far (R84). -/
  bindings : List (ResultName × Value)
  /-- How the run stands (R239). -/
  status : Status
  /-- Physical memory of the host context (R32, R41). -/
  mem : Memory
  /-- The tables made so far, in order; none where destroyed (R58 to R60). -/
  tables : List (Option Table)
  /-- The frames the allocator will offer, in order: the environment's draws (R61, I15, I16). -/
  frames : List PPN
  /-- Old translations not yet invalidated (R47). -/
  stale : List Stale
  deriving DecidableEq, Repr

/-- The state after reset. The block has nothing to reset (R230), and no host run has been placed. DESIGN
CHOICE: the build is the default (log entry 2), the buses are absent (log entry 1), the host fields are empty
(log entries 4 and 9). -/
def State.reset : State :=
  { config := Config.default
    request := none
    response := none
    program := []
    bindings := []
    status := .running
    mem := []
    tables := []
    frames := []
    stale := [] }

/-- Why a step stops with a fault. -/
inductive Fault where
  /-- A step after the run ended in failure: the system has halted, no later line is issued (R207, R239).
  Raised by step; safe. -/
  | halted (c : FaultCode)
  /-- A step after the run ended successfully: no line is left to issue (R239). Raised by step; safe. -/
  | programEnded
  /-- A step with no line placed: the block answers requests and there is none (R70). Raised by step; safe. -/
  | noRequest
  /-- One of the host's own fatal conditions, a whole-system halt; what is left in memory is not said
  (R208, R239), so no state is given. Raised by the page-table lines; safe. -/
  | hostHalt (r : HaltReason)
  /-- A host read outside the 2^56 bytes of physical memory (R32). Raised by a memRead line; safe. -/
  | outsidePhysicalMemory (address : Nat)
  deriving DecidableEq, Repr

/-- Why a step has no meaning. -/
inductive Refusal where
  /-- An instruction without a meaning yet; no arm of exec uses it. Raised by no step; safe. -/
  | notModelled (mnemonic : String)
  /-- An operand that names no earlier result, or one that is absent: R84 gives such a line no meaning.
  Raised by request and memRead lines; safe. -/
  | unboundOperand (x : ResultName)
  /-- A line that names no live table. Raised by the table lines; safe. -/
  | noSuchTable (table : Nat)
  /-- map or unmap on a view, which is used only to read (R58). Raised by map and unmap lines; safe. -/
  | viewIsReadOnly (table : Nat)
  deriving DecidableEq, Repr

end Sys2Proof.Machine
end

