-- ==== Sys2Proof/Machine/Ops.lean ====
section
/-! DEFINITION. The named operations: answering a request, raising a fault, the host's bindings, and
host memory (30_encoding.md R72, R78; 60_exceptions.md R200; 20_memory.md R41, R43, R50, R61). -/

namespace Sys2Proof.Machine

/-- What a step answers. -/
abbrev Result := Host.Outcome State Fault Refusal

/-! ## The response buses -/

/-- The code number on `fcode` (R78). -/
def FaultCode.number : FaultCode → BitVec 3
  | .illegalOp => 1#3
  | .misaligned => 2#3
  | .ceilOverflow => 3#3
  | .ceilZero => 4#3

/-- The `fault` line of a response (R72). -/
def Response.faultBit : Response → Bool
  | .result _ => false
  | .fault _ => true

/-- The `fcode` lines of a response: 0 when there is no fault (R72, R78). -/
def Response.fcode : Response → BitVec 3
  | .result _ => 0#3
  | .fault c => c.number

/-- The value on `y`, which a faulted response does not have (R77). -/
def Response.y : Response → Option Word
  | .result y => some y
  | .fault _ => none

/-! ## Answering a request -/

/-- The state with a response on the response buses. -/
def State.withResponse (s : State) (r : Response) : State := { s with response := some r }

/-- RAISING A FAULT, the one operation for all four codes (R200): the response carries the code and no
value; nothing is saved, changed or jumped to. There is no return from it (R207). -/
def raiseFault (c : FaultCode) (s : State) : Result := .next (s.withResponse (.fault c))

/-- The block answers: a result goes onto the response buses, a fault is raised (R70). -/
def respond (r : Response) (s : State) : Result :=
  match r with
  | .result y => .next (s.withResponse (.result y))
  | .fault c => raiseFault c s

/-! ## The host's bindings -/

/-- The value a result name is bound to. -/
def State.lookup (s : State) (x : ResultName) : Option Value := (s.bindings.find? (·.1 == x)).map (·.2)

/-- Bind a result name; an earlier value of the same name is replaced (log entry 16). -/
def State.bind (s : State) (x : ResultName) (v : Value) : State :=
  { s with bindings := s.bindings.filter (fun p => !(p.1 == x)) ++ [(x, v)] }

/-- The bus value of an operand: a literal, or an earlier result (R84). -/
def State.operand (s : State) : Operand → Except Refusal Word
  | .lit w => .ok w
  | .res x =>
    match s.lookup x with
    | some (.word w) => .ok w
    | some .absent | none => .error (.unboundOperand x)

/-- After a line that ended without a fault: the run succeeds when no line is left (R239). -/
def State.finish (s : State) : State := { s with status := if s.program.isEmpty then .succeeded else .running }

/-! ## Host memory -/

/-- What an address that is not listed reads as: the zero fill of R61 (log entry 9). -/
def unlistedByte : Byte := 0#8

/-- The canonical form: addresses strictly rising and inside the physical space (R32), no entry equal
to what an unlisted address reads as. -/
abbrev Memory.wf (m : Memory) : Prop :=
  m.Pairwise (fun c d => c.1 < d.1) ∧ ∀ c ∈ m, c.2 ≠ unlistedByte ∧ c.1 < Config.physBytes

/-- Read one byte. -/
def Memory.readByte : Memory → Nat → Byte
  | [], _ => unlistedByte
  | (k, v) :: rest, a => if k = a then v else Memory.readByte rest a

/-- A cell in front of the rest, left out when it equals what an unlisted address reads as. -/
def Memory.cons (a : Nat) (b : Byte) (m : Memory) : Memory := if b = unlistedByte then m else (a, b) :: m

/-- Write one byte, keeping the canonical form. -/
def Memory.writeByte : Memory → Nat → Byte → Memory
  | [], a, b => Memory.cons a b []
  | (k, v) :: rest, a, b =>
    if a < k then Memory.cons a b ((k, v) :: rest)
    else if a = k then Memory.cons a b rest
    else (k, v) :: Memory.writeByte rest a b

/-- `MemRead(a, n)` as a number: byte k holds bits 8k+7:8k (little-endian, R41). -/
def Memory.readLE (m : Memory) (a : Nat) : Nat → Nat
  | 0 => 0
  | n + 1 => (m.readByte a).toNat + 256 * m.readLE (a + 1) n

/-- `MemWrite(a, n, v)`: byte k becomes bits 8k+7:8k of `v` (little-endian, R41). -/
def Memory.writeLE (m : Memory) (a : Nat) : Nat → Nat → Memory
  | 0, _ => m
  | n + 1, v => (m.writeByte a (BitVec.ofNat 8 v)).writeLE (a + 1) n (v / 256)

/-- Read the PTE at an address, one 8-byte access (R43). -/
def Memory.readPTE (m : Memory) (a : PA) : PTE := BitVec.ofNat 64 (m.readLE a.toNat 8)

/-- Write the PTE at an address, one 8-byte access (R43). -/
def Memory.writePTE (m : Memory) (a : PA) (e : PTE) : Memory := m.writeLE a.toNat 8 e.toNat

/-- The first byte address of a frame (R32). -/
def frameBase (f : PPN) : Nat := f.toNat * Config.pageSize

/-- The byte address lies in the frame (R32). -/
def inFrame (f : PPN) (a : Nat) : Bool := decide (frameBase f ≤ a) && decide (a < frameBase f + Config.pageSize)

/-- A frame as the allocator hands it out: every byte zero (R61). -/
def Memory.zeroFrame (m : Memory) (f : PPN) : Memory := m.filter (fun c => !inFrame f c.1)

/-- Address of entry `i` of the node in frame `n` (R50). -/
def slot (n : PPN) (i : LevelIndex) : PA := (n.setWidth 56 <<< 12) + 8#56 * i.setWidth 56

end Sys2Proof.Machine
end

