-- ==== Sys2Proof/Machine/Masking.lean ====
section
/-! DEFINITION. Width masking and canonicalization (40_address_masking.md R100 to R111). For each
operation: the value it computes, the response it answers, and its meaning. -/

namespace Sys2Proof.Machine

/-- PhysAddr from a raw word: the low 56 bits (R100). -/
def paFromWord (w : Word) : PA := w.extractLsb' 0 56

/-- PhysPageNum from a raw word: the low 44 bits, no shift (R101). -/
def ppnFromWord (w : Word) : PPN := w.extractLsb' 0 44

/-- VirtAddr from a raw word: the low 39 bits, canonical or not (R102). -/
def vaFromWord (w : Word) : VA := w.extractLsb' 0 39

/-- VirtPageNum from a raw word: the low 27 bits (R103). -/
def vpnFromWord (w : Word) : VPN := w.extractLsb' 0 27

/-- The canonical word of a VirtAddr: bit 38 copied into bits 63:39 (R104). -/
def vaToWord (v : VA) : Word := v.signExtend 64

/-- Root PhysPageNum of a root token: the low 44 bits (R25, R110). -/
def tokenRootPpn (t : Word) : PPN := t.extractLsb' 0 44

/-- Response of PA_FROM_WORD (R100). -/
def evalPaFromWord (w : Word) : Response := .result (onBus (paFromWord w))
/-- Response of PPN_FROM_WORD (R101). -/
def evalPpnFromWord (w : Word) : Response := .result (onBus (ppnFromWord w))
/-- Response of VA_FROM_WORD (R102). -/
def evalVaFromWord (w : Word) : Response := .result (onBus (vaFromWord w))
/-- Response of VPN_FROM_WORD (R103). -/
def evalVpnFromWord (w : Word) : Response := .result (onBus (vpnFromWord w))
/-- Response of VA_TO_WORD (R104). -/
def evalVaToWord (v : VA) : Response := .result (vaToWord v)
/-- Response of TOKEN_ROOT_PPN (R110). -/
def evalTokenRootPpn (t : Word) : Response := .result (onBus (tokenRootPpn t))

/-- PA_FROM_WORD (R100). -/
def execPaFromWord (w : Word) (s : State) : Result := respond (evalPaFromWord w) s
/-- PPN_FROM_WORD (R101). -/
def execPpnFromWord (w : Word) (s : State) : Result := respond (evalPpnFromWord w) s
/-- VA_FROM_WORD (R102). -/
def execVaFromWord (w : Word) (s : State) : Result := respond (evalVaFromWord w) s
/-- VPN_FROM_WORD (R103). -/
def execVpnFromWord (w : Word) (s : State) : Result := respond (evalVpnFromWord w) s
/-- VA_TO_WORD (R104). -/
def execVaToWord (v : VA) (s : State) : Result := respond (evalVaToWord v) s
/-- TOKEN_ROOT_PPN (R110). -/
def execTokenRootPpn (t : Word) (s : State) : Result := respond (evalTokenRootPpn t) s

end Sys2Proof.Machine
end

