-- ==== Sys2Proof/Machine/PageArithmetic.lean ====
section
/-! DEFINITION. Page arithmetic and level indices (41_page_arithmetic.md R130 to R154). -/

namespace Sys2Proof.Machine

/-! ## Shared operations -/

/-- The quotient of ceil, `(v - 1 + 4096) / 4096` in 64-bit arithmetic (R134, R137, R143). -/
def ceilQuotient (v : Word) : Word := (v - 1#64 + 4096#64) / 4096#64

/-- Ceil of an operand of a W-bit address type, already on 64 bits; `pages` is 2^(W-12). A zero operand
is decided by the build parameter (R134), a quotient past the top page faults (R135). -/
def ceilResponse (config : Config) (pages v : Word) : Response :=
  if v = 0#64 then
    if config.ceilZeroFaults then .fault .ceilZero else .result 0#64
  else if ceilQuotient v = pages then .fault .ceilOverflow
  else .result (ceilQuotient v)

/-- A conversion that requires alignment: MISALIGNED on a non-zero page offset (R138, R144, R202). -/
def alignedResponse (offset : PageOffset) (y : Word) : Response :=
  if offset ≠ 0#12 then .fault .misaligned else .result y

/-! ## The values -/

/-- Page offset of a PA: its low 12 bits (R130). -/
def paPageOffset (v : PA) : PageOffset := v.extractLsb' 0 12
/-- A PA is page-aligned (R131). -/
def paAligned (v : PA) : Bool := paPageOffset v == 0#12
/-- Page offset of a VA: its low 12 bits (R132). -/
def vaPageOffset (v : VA) : PageOffset := v.extractLsb' 0 12
/-- A VA is page-aligned (R133). -/
def vaAligned (v : VA) : Bool := vaPageOffset v == 0#12
/-- Page that holds a PA: `a[55:12]` (R136). -/
def paFloor (v : PA) : PPN := v.extractLsb' 12 44
/-- First byte of a physical page: the PPN shifted left by 12 (R139). -/
def ppnToPa (p : PPN) : PA := p ++ 0#12
/-- Page that holds a VA: `a[38:12]` (R142). -/
def vaFloor (v : VA) : VPN := v.extractLsb' 12 27
/-- First byte of a virtual page in stored form: the VPN shifted left by 12 (R145). -/
def vpnToVa (p : VPN) : VA := p ++ 0#12
/-- `idx[0]`, walk step 0: `a[26:18]` (R150). -/
def vpnIndex0 (p : VPN) : LevelIndex := p.extractLsb' 18 9
/-- `idx[1]`, walk step 1: `a[17:9]` (R151). -/
def vpnIndex1 (p : VPN) : LevelIndex := p.extractLsb' 9 9
/-- `idx[2]`, walk step 2: `a[8:0]` (R152). -/
def vpnIndex2 (p : VPN) : LevelIndex := p.extractLsb' 0 9

/-! ## The responses -/

/-- Response of PA_PAGE_OFFSET (R130). -/
def evalPaPageOffset (v : PA) : Response := .result (onBus (paPageOffset v))
/-- Response of PA_ALIGNED (R131). -/
def evalPaAligned (v : PA) : Response := .result (boolOnBus (paAligned v))
/-- Response of VA_PAGE_OFFSET (R132). -/
def evalVaPageOffset (v : VA) : Response := .result (onBus (vaPageOffset v))
/-- Response of VA_ALIGNED (R133). -/
def evalVaAligned (v : VA) : Response := .result (boolOnBus (vaAligned v))
/-- Response of PA_FLOOR (R136). -/
def evalPaFloor (v : PA) : Response := .result (onBus (paFloor v))
/-- Response of PA_CEIL; the PPN type has 2^44 pages (R137). -/
def evalPaCeil (config : Config) (v : PA) : Response := ceilResponse config 0x100000000000#64 (onBus v)
/-- Response of PA_TO_PPN (R138). -/
def evalPaToPpn (v : PA) : Response := alignedResponse (paPageOffset v) (onBus (paFloor v))
/-- Response of PPN_TO_PA (R139). -/
def evalPpnToPa (p : PPN) : Response := .result (onBus (ppnToPa p))
/-- Response of VA_FLOOR (R142). -/
def evalVaFloor (v : VA) : Response := .result (onBus (vaFloor v))
/-- Response of VA_CEIL, on the stored form; the VPN type has 2^27 pages (R143). -/
def evalVaCeil (config : Config) (v : VA) : Response := ceilResponse config 0x8000000#64 (onBus v)
/-- Response of VA_TO_VPN (R144). -/
def evalVaToVpn (v : VA) : Response := alignedResponse (vaPageOffset v) (onBus (vaFloor v))
/-- Response of VPN_TO_VA (R145). -/
def evalVpnToVa (p : VPN) : Response := .result (onBus (vpnToVa p))
/-- Response of VPN_INDEX0 (R150). -/
def evalVpnIndex0 (p : VPN) : Response := .result (onBus (vpnIndex0 p))
/-- Response of VPN_INDEX1 (R151). -/
def evalVpnIndex1 (p : VPN) : Response := .result (onBus (vpnIndex1 p))
/-- Response of VPN_INDEX2 (R152). -/
def evalVpnIndex2 (p : VPN) : Response := .result (onBus (vpnIndex2 p))

/-! ## The meanings -/

/-- PA_PAGE_OFFSET (R130). -/
def execPaPageOffset (v : PA) (s : State) : Result := respond (evalPaPageOffset v) s
/-- PA_ALIGNED (R131). -/
def execPaAligned (v : PA) (s : State) : Result := respond (evalPaAligned v) s
/-- VA_PAGE_OFFSET (R132). -/
def execVaPageOffset (v : VA) (s : State) : Result := respond (evalVaPageOffset v) s
/-- VA_ALIGNED (R133). -/
def execVaAligned (v : VA) (s : State) : Result := respond (evalVaAligned v) s
/-- PA_FLOOR (R136). -/
def execPaFloor (v : PA) (s : State) : Result := respond (evalPaFloor v) s
/-- PA_CEIL (R137). -/
def execPaCeil (v : PA) (s : State) : Result := respond (evalPaCeil s.config v) s
/-- PA_TO_PPN (R138). -/
def execPaToPpn (v : PA) (s : State) : Result := respond (evalPaToPpn v) s
/-- PPN_TO_PA (R139). -/
def execPpnToPa (p : PPN) (s : State) : Result := respond (evalPpnToPa p) s
/-- VA_FLOOR (R142). -/
def execVaFloor (v : VA) (s : State) : Result := respond (evalVaFloor v) s
/-- VA_CEIL (R143). -/
def execVaCeil (v : VA) (s : State) : Result := respond (evalVaCeil s.config v) s
/-- VA_TO_VPN (R144). -/
def execVaToVpn (v : VA) (s : State) : Result := respond (evalVaToVpn v) s
/-- VPN_TO_VA (R145). -/
def execVpnToVa (p : VPN) (s : State) : Result := respond (evalVpnToVa p) s
/-- VPN_INDEX0 (R150). -/
def execVpnIndex0 (p : VPN) (s : State) : Result := respond (evalVpnIndex0 p) s
/-- VPN_INDEX1 (R151). -/
def execVpnIndex1 (p : VPN) (s : State) : Result := respond (evalVpnIndex1 p) s
/-- VPN_INDEX2 (R152). -/
def execVpnIndex2 (p : VPN) (s : State) : Result := respond (evalVpnIndex2 p) s

end Sys2Proof.Machine
end

