-- ==== Sys2Proof/Machine/PteCodec.lean ====
section
/-! DEFINITION. The page-table-entry codec (42_pte_codec.md R170 to R188). -/

namespace Sys2Proof.Machine

/-- Pack a PPN and a flag set; bits 9:8 and 63:54 are 0, nothing is validated (R171, R180). -/
def pteNew (p : PPN) (f : Flags) : PTE := (p.setWidth 64 <<< 10) ||| f.setWidth 64

/-- The empty sentinel (R173, R181). -/
def pteEmpty : PTE := 0#64

/-- PPN of an entry, valid or not: bits 53:10 (R172, R182). -/
def ptePpn (e : PTE) : PPN := e.extractLsb' 10 44

/-- Flag set of an entry, valid or not: bits 7:0 (R172, R183). -/
def pteFlags (e : PTE) : Flags := e.extractLsb' 0 8

/-- The V flag of an entry: bit 0 (R184). -/
def pteIsValid (e : PTE) : Bool := e.getLsbD 0

/-- Response of PTE_NEW (R180). -/
def evalPteNew (p : PPN) (f : Flags) : Response := .result (pteNew p f)
/-- Response of PTE_EMPTY (R181). -/
def evalPteEmpty : Response := .result pteEmpty
/-- Response of PTE_PPN (R182). -/
def evalPtePpn (e : PTE) : Response := .result (onBus (ptePpn e))
/-- Response of PTE_FLAGS; it never faults (R183, 90_conflicts.md C2). -/
def evalPteFlags (e : PTE) : Response := .result (onBus (pteFlags e))
/-- Response of PTE_IS_VALID (R184). -/
def evalPteIsValid (e : PTE) : Response := .result (boolOnBus (pteIsValid e))

/-- PTE_NEW (R180). -/
def execPteNew (p : PPN) (f : Flags) (s : State) : Result := respond (evalPteNew p f) s
/-- PTE_EMPTY (R181). -/
def execPteEmpty (s : State) : Result := respond evalPteEmpty s
/-- PTE_PPN (R182). -/
def execPtePpn (e : PTE) (s : State) : Result := respond (evalPtePpn e) s
/-- PTE_FLAGS (R183). -/
def execPteFlags (e : PTE) (s : State) : Result := respond (evalPteFlags e) s
/-- PTE_IS_VALID (R184). -/
def execPteIsValid (e : PTE) (s : State) : Result := respond (evalPteIsValid e) s

end Sys2Proof.Machine
end

