-- ==== Sys2Proof/Machine/ReservedCodes.lean ====
section
/-! DEFINITION. The reserved operation codes (30_encoding.md R81, 60_exceptions.md R201): they read no
operand and are answered with ILLEGAL_OP. -/

namespace Sys2Proof.Machine

/-- Response to the codes 1101x, 0x1A and 0x1B (R81). -/
def evalReserved1101x (_x : BitVec 1) : Response := .fault .illegalOp
/-- Response to the codes 111xx, 0x1C to 0x1F (R81). -/
def evalReserved111xx (_x : BitVec 2) : Response := .fault .illegalOp

/-- Reserved codes 1101x (R81). -/
def execReserved1101x (x : BitVec 1) (s : State) : Result := respond (evalReserved1101x x) s
/-- Reserved codes 111xx (R81). -/
def execReserved111xx (x : BitVec 2) (s : State) : Result := respond (evalReserved111xx x) s

end Sys2Proof.Machine
end

