-- ==== Sys2Proof/Machine/Dispatch.lean ====
section
/-! DEFINITION. One arm per row of spec/opcode_table.json (30_encoding.md R80). -/

namespace Sys2Proof.Machine

def exec (i : Instr) (s : State) : Host.Outcome State Fault Refusal :=
  match i with
  -- 40_address_masking.md
  | .paFromWord w => Sys2Proof.Machine.execPaFromWord w s
  | .ppnFromWord w => Sys2Proof.Machine.execPpnFromWord w s
  | .vaFromWord w => Sys2Proof.Machine.execVaFromWord w s
  | .vpnFromWord w => Sys2Proof.Machine.execVpnFromWord w s
  | .vaToWord v => Sys2Proof.Machine.execVaToWord v s
  | .tokenRootPpn t => Sys2Proof.Machine.execTokenRootPpn t s
  -- 41_page_arithmetic.md
  | .paPageOffset v => Sys2Proof.Machine.execPaPageOffset v s
  | .paAligned v => Sys2Proof.Machine.execPaAligned v s
  | .vaPageOffset v => Sys2Proof.Machine.execVaPageOffset v s
  | .vaAligned v => Sys2Proof.Machine.execVaAligned v s
  | .paFloor v => Sys2Proof.Machine.execPaFloor v s
  | .paCeil v => Sys2Proof.Machine.execPaCeil v s
  | .paToPpn v => Sys2Proof.Machine.execPaToPpn v s
  | .ppnToPa p => Sys2Proof.Machine.execPpnToPa p s
  | .vaFloor v => Sys2Proof.Machine.execVaFloor v s
  | .vaCeil v => Sys2Proof.Machine.execVaCeil v s
  | .vaToVpn v => Sys2Proof.Machine.execVaToVpn v s
  | .vpnToVa p => Sys2Proof.Machine.execVpnToVa p s
  | .vpnIndex0 p => Sys2Proof.Machine.execVpnIndex0 p s
  | .vpnIndex1 p => Sys2Proof.Machine.execVpnIndex1 p s
  | .vpnIndex2 p => Sys2Proof.Machine.execVpnIndex2 p s
  -- 42_pte_codec.md
  | .pteNew p f => Sys2Proof.Machine.execPteNew p f s
  | .pteEmpty => Sys2Proof.Machine.execPteEmpty s
  | .ptePpn e => Sys2Proof.Machine.execPtePpn e s
  | .pteFlags e => Sys2Proof.Machine.execPteFlags e s
  | .pteIsValid e => Sys2Proof.Machine.execPteIsValid e s
  -- 30_encoding.md R81
  | .reserved1101x x => Sys2Proof.Machine.execReserved1101x x s
  | .reserved111xx x => Sys2Proof.Machine.execReserved111xx x s

end Sys2Proof.Machine
end

