-- ==== Sys2Proof/Machine/HostProgram.lean ====
section
/-! DEFINITION. The host's side of a request line and its memory reads (30_encoding.md R84,
60_exceptions.md R207, 70_reset_and_hazards.md R239, 20_memory.md R41). -/

namespace Sys2Proof.Machine

/-- The lines still to be issued once a line has been taken. -/
def State.withProgram (s : State) (rest : List Line) : State := { s with program := rest }

/-- The whole-system halt on a faulted response (R207, R239). Only the status changes: that memory, tables and
frames stay as they were is a DESIGN CHOICE, since R239 does not say what happens to memory after a halt (log
entry 20). -/
def State.fail (s : State) (c : FaultCode) : State := { s with status := .failed c }

/-- Put a request on the buses; no response to it yet (R71). -/
def State.issue (s : State) (q : Request) : State := { s with request := some q, response := none }

/-- What the host does with the block's answer: a result is bound and the run goes on; a faulted
response is the whole-system halt, and no later line is issued (R84, R207, R239). -/
def react (dest : ResultName) : Result → Result
  | .next s =>
    match s.response with
    | some (.result y) => .next (s.bind dest (.word y)).finish
    | some (.fault c) => .next (s.fail c)
    | none => .next s
  | .fault f => .fault f
  | .refused r => .refused r

/-- After a host operation that went on. -/
def proceed : Result → Result
  | .next s => .next s.finish
  | .fault f => .fault f
  | .refused r => .refused r

/-- The request of a line, its operands resolved (R84). -/
def State.resolve (s : State) (op : OpCode) (a b : Operand) : Except Refusal Request :=
  match s.operand a with
  | .error e => .error e
  | .ok x =>
    match s.operand b with
    | .error e => .error e
    | .ok y => .ok { op := op, a := x, b := y }

/-- `MemRead(base + 8 * index, 8)`: any byte address of physical memory, little-endian (R11, R41). -/
def hostMemRead (dest : ResultName) (base index : Operand) (s : State) : Result :=
  match s.operand base with
  | .error e => .refused e
  | .ok x =>
    match s.operand index with
    | .error e => .refused e
    | .ok i =>
      if x.toNat + 8 * i.toNat + 8 ≤ Config.physBytes then
        .next (s.bind dest (.word (BitVec.ofNat 64 (s.mem.readLE (x.toNat + 8 * i.toNat) 8))))
      else .fault (.outsidePhysicalMemory (x.toNat + 8 * i.toNat))

end Sys2Proof.Machine
end

