-- ==== Sys2Proof/Machine/Flags.lean ====
section
/-! DEFINITION. The flag set of a page-table entry (42_pte_codec.md R170). The block has no condition
codes and no status flags (10_state.md R23), so no operation writes a flag; these eight are data. -/

namespace Sys2Proof.Machine

/-- The bit of each flag (R170): V is bit 0, then R, W, X, U, G, A and D upward. -/
def flagBit : Flag → Nat
  | .V => 0
  | .R => 1
  | .W => 2
  | .X => 3
  | .U => 4
  | .G => 5
  | .A => 6
  | .D => 7

/-- The mask of one flag (R170). -/
def flagMask (f : Flag) : Flags := 1#8 <<< flagBit f

/-- A flag set from its flag names: the flags are independent bits, combinable (R170). -/
def flagSet (fs : List Flag) : Flags := fs.foldr (fun f acc => flagMask f ||| acc) 0#8

/-- The flag set with Valid added, `flags | 0x01` (20_memory.md R54, 30_encoding.md R85). -/
def withValid (f : Flags) : Flags := f ||| 0x01#8

/-- A stored entry with its A and D bits replaced (70_reset_and_hazards.md R236, 42_pte_codec.md R170). -/
def withStatusBits (e : PTE) (accessed dirty : Bool) : PTE :=
  (e &&& ~~~0xC0#64) ||| (if accessed then 0x40#64 else 0#64) ||| (if dirty then 0x80#64 else 0#64)

end Sys2Proof.Machine
end

