-- ==== Sys2Proof/Machine/PageTable.lean ====
section
/-! DEFINITION. The page-table software of the host context (20_memory.md R50 to R62): the walk, map,
unmap, translate, tables and frames, the stale translations of R47 and the processor's A and D writes
of R236. Each host operation is one step (log entry 6). Nothing here checks a permission (R62). -/

namespace Sys2Proof.Machine

/-! ## Tables and frames -/

/-- The live table of a number. -/
def State.table? (s : State) (t : Nat) : Option Table := s.tables.getD t none

/-- The frames an entry of the table list owns. -/
def ownedOf : Option Table → List PPN
  | some tb => tb.owned
  | none => []

/-- Every frame owned by a live table (R60). -/
def State.ownedFrames (s : State) : List PPN := s.tables.flatMap ownedOf

/-- The allocator: the first frame offered that no table owns, with what is offered after it; none when
exhausted (R61, I15, I16; log entry 8). -/
def takeFrame (taken : List PPN) : List PPN → Option (PPN × List PPN)
  | [] => none
  | f :: rest => if taken.contains f then takeFrame taken rest else some (f, rest)

/-! ## The walk (R53) -/

/-- The node an entry at walk step 0 or 1 names, if the entry is valid (R53, R182, R184). -/
def enter (m : Memory) (node : PPN) (i : LevelIndex) : Option PPN :=
  if pteIsValid (m.readPTE (slot node i)) then some (ptePpn (m.readPTE (slot node i))) else none

/-- `find(root, vpn, 0)`: the leaf slot, or none for ABSENT. Step i uses `idx[i]` (R51), and the entry
at step 2 is the leaf whatever it holds (R52). -/
def find (m : Memory) (root : PPN) (vpn : VPN) : Option PA :=
  match enter m root (vpnIndex0 vpn) with
  | none => none
  | some n1 =>
    match enter m n1 (vpnIndex1 vpn) with
    | none => none
    | some n2 => some (slot n2 (vpnIndex2 vpn))

/-- What a creating walk changes: memory, what the allocator still offers, the frames it added. -/
structure Walk where
  mem : Memory
  frames : List PPN
  added : List PPN
  deriving DecidableEq, Repr

/-- One creating walk step: a missing node is allocated, zeroed and installed with only Valid set
(R53, R55). `taken` are the frames owned before the walk. -/
def enterCreate (taken : List PPN) (node : PPN) (i : LevelIndex) (w : Walk) : Option (PPN × Walk) :=
  match enter w.mem node i with
  | some n => some (n, w)
  | none =>
    match takeFrame (taken ++ w.added) w.frames with
    | none => none
    | some (f, rest) =>
      some (f, { mem := (w.mem.zeroFrame f).writePTE (slot node i) (pteNew f 0x01#8)
                 frames := rest
                 added := w.added ++ [f] })

/-- `find(root, vpn, 1)`: the leaf slot after creating what is missing; none when the allocator is
exhausted (R53). -/
def findCreate (taken : List PPN) (root : PPN) (vpn : VPN) (w : Walk) : Option (PA × Walk) :=
  match enterCreate taken root (vpnIndex0 vpn) w with
  | none => none
  | some (n1, w1) =>
    match enterCreate taken n1 (vpnIndex1 vpn) w1 with
    | none => none
    | some (n2, w2) => some (slot n2 (vpnIndex2 vpn), w2)

/-- `translate(vpn)`: a copy of the leaf entry, valid or not; none only if an intermediate node is
missing (R57, 90_conflicts.md C3). -/
def translation (m : Memory) (root : PPN) (vpn : VPN) : Option PTE :=
  match find m root vpn with
  | none => none
  | some s => some (m.readPTE s)

/-- An optional entry as a bound value. -/
def entryValue : Option PTE → Value
  | some e => .word e
  | none => .absent

/-! ## The operations -/

/-- `construct()`: one zeroed root frame, recorded as owned (R59, R232). -/
def hostConstruct (s : State) : Result :=
  match takeFrame s.ownedFrames s.frames with
  | none => .fault (.hostHalt .allocatorExhausted)
  | some (f, rest) =>
    .next { s with mem := s.mem.zeroFrame f
                   frames := rest
                   tables := s.tables ++ [some { root := f, owned := [f], kind := .owner }] }

/-- `from_root_token(token)`: a view that owns nothing (R58, R110). -/
def hostFromRootToken (token : Word) (s : State) : Result :=
  .next { s with tables := s.tables ++ [some { root := tokenRootPpn token, owned := [], kind := .view }] }

/-- Remember the translation a page had before a PTE write (R47). -/
def State.rememberStale (s : State) (root : PPN) (vpn : VPN) : List Stale :=
  { root := root, vpn := vpn, old := translation s.mem root vpn } :: s.stale

/-- `map(vpn, ppn, flags)` (R54): fatal on a valid leaf and on an exhausted allocator (R208). -/
def hostMap (t : Nat) (vpn : VPN) (ppn : PPN) (flags : Flags) (s : State) : Result :=
  match s.table? t with
  | none => .refused (.noSuchTable t)
  | some tb =>
    match tb.kind with
    | .view => .refused (.viewIsReadOnly t)
    | .owner =>
      match findCreate s.ownedFrames tb.root vpn { mem := s.mem, frames := s.frames, added := [] } with
      | none => .fault (.hostHalt .allocatorExhausted)
      | some (leaf, w) =>
        if pteIsValid (w.mem.readPTE leaf) then .fault (.hostHalt .mapOfValidLeaf)
        else
          .next { s with mem := w.mem.writePTE leaf (pteNew ppn (withValid flags))
                         frames := w.frames
                         tables := s.tables.set t (some { tb with owned := tb.owned ++ w.added })
                         stale := s.rememberStale tb.root vpn }

/-- `unmap(vpn)` (R56): fatal through a missing node and on an invalid leaf (R208); intermediate frames
stay. -/
def hostUnmap (t : Nat) (vpn : VPN) (s : State) : Result :=
  match s.table? t with
  | none => .refused (.noSuchTable t)
  | some tb =>
    match tb.kind with
    | .view => .refused (.viewIsReadOnly t)
    | .owner =>
      match find s.mem tb.root vpn with
      | none => .fault (.hostHalt .unmapThroughMissingNode)
      | some leaf =>
        if pteIsValid (s.mem.readPTE leaf) then
          .next { s with mem := s.mem.writePTE leaf pteEmpty
                         stale := s.rememberStale tb.root vpn }
        else .fault (.hostHalt .unmapOfInvalidLeaf)

/-- `translate(vpn)`: binds the entry or absent, writes nothing (R57). -/
def hostTranslate (dest : ResultName) (t : Nat) (vpn : VPN) (s : State) : Result :=
  match s.table? t with
  | none => .refused (.noSuchTable t)
  | some tb => .next (s.bind dest (entryValue (translation s.mem tb.root vpn)))

/-- Destroy a table; its frames are released with it (R60). -/
def hostDestroy (t : Nat) (s : State) : Result :=
  match s.table? t with
  | none => .refused (.noSuchTable t)
  | some _ => .next { s with tables := s.tables.set t none }

/-- Invalidate stale translations: none may be used any more (R47). -/
def hostInvalidate (s : State) : Result := .next { s with stale := [] }

/-- The translations of a page the processor may use: the present one, and until the next invalidation
the old ones (R47, R235). -/
def State.admitted (s : State) (root : PPN) (vpn : VPN) : List (Option PTE) :=
  translation s.mem root vpn :: (s.stale.filter (fun e => e.root == root && e.vpn == vpn)).map (·.old)

/-- The processor uses one of the admitted translations (R47, R235); the present one is number 0, and a
number past the last is taken as 0 (log entry 11). -/
def processorUse (dest : ResultName) (t : Nat) (vpn : VPN) (pick : Nat) (s : State) : Result :=
  match s.table? t with
  | none => .refused (.noSuchTable t)
  | some tb =>
    .next (s.bind dest (entryValue ((s.admitted tb.root vpn).getD pick (translation s.mem tb.root vpn))))

/-- The processor writes A and D in a valid stored leaf (R236); without one nothing happens (log entry 12). -/
def processorStatus (t : Nat) (vpn : VPN) (accessed dirty : Bool) (s : State) : Result :=
  match s.table? t with
  | none => .refused (.noSuchTable t)
  | some tb =>
    match find s.mem tb.root vpn with
    | none => .next s
    | some leaf =>
      if pteIsValid (s.mem.readPTE leaf) then
        .next { s with mem := s.mem.writePTE leaf (withStatusBits (s.mem.readPTE leaf) accessed dirty) }
      else .next s

end Sys2Proof.Machine
end

