-- ==== Sys2Proof/Machine/Step.lean ====
section
/-! DEFINITION. One step: the host issues its next line (70_reset_and_hazards.md R239, 30_encoding.md R84).
A request line is answered by the block in one evaluation (R70, R238). -/

namespace Sys2Proof.Machine

/-- A request line: decode, let the block answer, and let the host react. -/
def stepRequest (dest : ResultName) (q : Request) (s : State) : Result :=
  react dest (exec (decode q) (s.issue q))

/-- The effect of one line on a state from which the line has been taken. -/
def runLine (l : Line) (s : State) : Result :=
  match l with
  | .request dest op a b =>
    match s.resolve op a b with
    | .ok q => stepRequest dest q s
    | .error e => .refused e
  | .memRead dest base index => proceed (hostMemRead dest base index s)
  | .construct => proceed (hostConstruct s)
  | .fromRootToken token => proceed (hostFromRootToken token s)
  | .map t vpn ppn flags => proceed (hostMap t vpn ppn flags s)
  | .unmap t vpn => proceed (hostUnmap t vpn s)
  | .translate dest t vpn => proceed (hostTranslate dest t vpn s)
  | .destroy t => proceed (hostDestroy t s)
  | .invalidate => proceed (hostInvalidate s)
  | .processorUse dest t vpn pick => proceed (processorUse dest t vpn pick s)
  | .processorStatus t vpn accessed dirty => proceed (processorStatus t vpn accessed dirty s)

/-- One step of the machine. A run that has ended issues no line (R207, R239). -/
def step (s : State) : Host.Outcome State Fault Refusal :=
  match s.status with
  | .failed c => .fault (.halted c)
  | .succeeded => .fault .programEnded
  | .running =>
    match s.program with
    | [] => .fault .noRequest
    | l :: rest => runLine l (s.withProgram rest)

/-- The state whose next step issues exactly the request numbered `w` in its `nbits` low bits: a host
program of that one line, which stands for loading it (log entry 4). -/
def State.withFetchWord (s : State) (nbits w : Nat) : State :=
  { s with
    program := [.request (.r 0) (Request.ofNumber (w % 2 ^ nbits)).op
      (.lit (Request.ofNumber (w % 2 ^ nbits)).a) (.lit (Request.ofNumber (w % 2 ^ nbits)).b)]
    status := .running }

end Sys2Proof.Machine
end

