-- ==== Sys2Proof/WellFormed.lean ====
section
/-! DEFINITION. Which host runs are well formed. An `Instr` carries exactly the bits its operation
reads, so it is well formed by its type, and every request decodes (30_encoding.md R70, R74). What can
be ill formed is a host line: an operand that names no earlier result, or a table not made yet; and an
assembler line: a wrong operand count, a literal wider than a bus, or a flag place that holds no
literal (30_encoding.md R73, R84, R85). -/

namespace Sys2Proof

/-- The operand is a literal or names a result bound before the line (R84). -/
def Operand.wf (bound : List ResultName) : Operand → Bool
  | .lit _ => true
  | .res x => bound.contains x

/-- The line's operands are bound and its table has been made (`tables` tables exist). -/
def Line.wf (bound : List ResultName) (tables : Nat) : Line → Bool
  | .request _ _ a b => a.wf bound && b.wf bound
  | .memRead _ base index => base.wf bound && index.wf bound
  | .construct | .fromRootToken _ | .invalidate => true
  | .map t _ _ _ | .unmap t _ | .translate _ t _ | .destroy t | .processorUse _ t _ _
  | .processorStatus t _ _ _ => decide (t < tables)

/-- The result name a line binds, if any. -/
def Line.binds : Line → Option ResultName
  | .request d _ _ _ | .memRead d _ _ | .translate d _ _ | .processorUse d _ _ _ => some d
  | .construct | .fromRootToken _ | .invalidate => none
  | .map _ _ _ _ | .unmap _ _ | .destroy _ | .processorStatus _ _ _ _ => none

/-- How many tables a line makes. -/
def Line.makes : Line → Nat
  | .construct | .fromRootToken _ => 1
  | .request _ _ _ _ | .memRead _ _ _ | .map _ _ _ _ | .unmap _ _ | .translate _ _ _ | .destroy _
  | .invalidate | .processorUse _ _ _ _ | .processorStatus _ _ _ _ => 0

/-- Every line is well formed after the lines before it. -/
def programWf (bound : List ResultName) (tables : Nat) : List Line → Bool
  | [] => true
  | l :: rest => l.wf bound tables && programWf (l.binds.toList ++ bound) (tables + l.makes) rest

/-- Operands an operation takes: none for 0x16 and the reserved codes, two for 0x15, else one (R73). -/
def operandCount (op : OpCode) : Nat :=
  if op = 0x15#5 then 2 else if op = 0x16#5 ∨ 0x1a#5 ≤ op then 0 else 1

/-- Operands a pseudo-instruction takes (R85). -/
def Pseudo.operandCount : Pseudo → Nat
  | .pteLeaf => 2
  | .pteNode | .canon | .ptePa | .vaOfPage => 1

/-- A written literal fits its 64-bit bus (R84). -/
def AsmOperand.wf : AsmOperand → Bool
  | .num n => decide (n < 2 ^ 64)
  | .name _ | .flags _ => true

/-- The assembler can fold a value into the operand: it is no result name (R85). -/
def AsmOperand.isLiteral : AsmOperand → Bool
  | .num _ | .flags _ => true
  | .name _ => false

/-- A written line has the operands its mnemonic takes, each fitting its bus, a code that names an
operation (R80), and a literal flag set where the assembler ORs Valid in (R85). -/
def AsmLine.wf (l : AsmLine) : Bool :=
  l.operands.all AsmOperand.wf &&
  match l.head with
  | .core op => decide (op < 0x1a#5) && l.operands.length == operandCount op
  | .pseudo p => l.operands.length == p.operandCount &&
      (p != .pteLeaf || (l.operands.getD 1 (.num 0)).isLiteral)

end Sys2Proof
end

