-- ==== Sys2Proof/Machine/Assembler.lean ====
section
/-! DEFINITION. The assembler of host programs: pseudo-instructions (30_encoding.md R85), operand folding
and the written form of a line (R84). It is notation: what runs is the list of lines it answers. -/

namespace Sys2Proof.Machine

/-- Why a written line is refused. -/
inductive AsmError where
  /-- No operation or pseudo-instruction of that name or code. -/
  | noSuchMnemonic
  /-- Not the number of operands the mnemonic takes (R73). -/
  | operandCount
  /-- A literal wider than the 64-bit bus (R84). -/
  | literalTooWide
  /-- Valid cannot be folded into an operand that is no literal (R85). -/
  | flagsNotLiteral
  /-- The text is no line that the parser reads (R84), a name other than `rN` included (log entry 15). -/
  | malformed
  deriving DecidableEq, Repr

/-! ## From written lines to request lines -/

/-- A bus that a format does not read (R73, R75). -/
def unreadBus : Operand := .lit 0#64

/-- A written operand as an operand of a request line; flag names fold to a literal (R84). -/
def foldOperand : AsmOperand → Operand
  | .num n => .lit (BitVec.ofNat 64 n)
  | .name n => .res (.r n)
  | .flags fs => .lit (onBus (flagSet fs))

/-- The flag operand of PTE_LEAF with Valid ORed in by the assembler (R85). -/
def foldValid (o : AsmOperand) : Except AsmError Operand :=
  match foldOperand o with
  | .lit w => .ok (.lit (w ||| 1#64))
  | .res _ => .error .flagsNotLiteral

/-- The request line of an operation with its operands in order (R73). -/
def coreLine (dest : ResultName) (op : OpCode) (ops : List Operand) : Except AsmError Line :=
  if ops.length = operandCount op then
    .ok (.request dest op (ops.getD 0 unreadBus) (ops.getD 1 unreadBus))
  else .error .operandCount

/-- Expansion of a pseudo-instruction that binds `rN` (R85); its intermediate is `tN`. -/
def expandPseudo (n : Nat) : Pseudo → List AsmOperand → Except AsmError (List Line)
  | .pteLeaf, [p, f] =>
    match foldValid f with
    | .ok v => .ok [.request (.r n) 0x15#5 (foldOperand p) v]
    | .error e => .error e
  | .pteNode, [p] => .ok [.request (.r n) 0x15#5 (foldOperand p) (.lit 1#64)]
  | .canon, [w] =>
    .ok [.request (.t n) 0x02#5 (foldOperand w) unreadBus, .request (.r n) 0x04#5 (.res (.t n)) unreadBus]
  | .ptePa, [e] =>
    .ok [.request (.t n) 0x17#5 (foldOperand e) unreadBus, .request (.r n) 0x0d#5 (.res (.t n)) unreadBus]
  | .vaOfPage, [p] =>
    .ok [.request (.t n) 0x11#5 (foldOperand p) unreadBus, .request (.r n) 0x04#5 (.res (.t n)) unreadBus]
  | _, _ => .error .operandCount

/-- The request lines of a written line. -/
def assembleLine (l : AsmLine) : Except AsmError (List Line) :=
  if l.operands.all AsmOperand.wf then
    match l.head with
    | .core op =>
      if op < 0x1a#5 then
        match coreLine (.r l.dest) op (l.operands.map foldOperand) with
        | .ok r => .ok [r]
        | .error e => .error e
      else .error .noSuchMnemonic
    | .pseudo p => expandPseudo l.dest p l.operands
  else .error .literalTooWide

/-- The lines of a written program, in order; the first bad line refuses it. -/
def assemble : List AsmLine → Except AsmError (List Line)
  | [] => .ok []
  | l :: rest =>
    match assembleLine l with
    | .error e => .error e
    | .ok ls =>
      match assemble rest with
      | .error e => .error e
      | .ok more => .ok (ls ++ more)

/-! ## The written form -/

/-- A text cut at every occurrence of a character. -/
def cutAt (c : Char) : List Char → List (List Char)
  | [] => [[]]
  | x :: rest =>
    if x = c then [] :: cutAt c rest
    else
      match cutAt c rest with
      | [] => [[x]]
      | w :: ws => (x :: w) :: ws

/-- A text without the spaces at its ends. -/
def trim (cs : List Char) : List Char :=
  ((cs.dropWhile (· = ' ')).reverse.dropWhile (· = ' ')).reverse

/-- The value of a digit of a base up to 16. -/
def digitValue (base : Nat) (c : Char) : Option Nat :=
  let n := c.toNat
  let v := if 48 ≤ n ∧ n ≤ 57 then n - 48
    else if 97 ≤ n ∧ n ≤ 102 then n - 87
    else if 65 ≤ n ∧ n ≤ 70 then n - 55
    else 16
  if v < base then some v else none

/-- Digits with `_` separators (R84), after a first digit. -/
def digits (base acc : Nat) : List Char → Option Nat
  | [] => some acc
  | c :: rest =>
    if c = '_' then digits base acc rest
    else
      match digitValue base c with
      | some d => digits base (base * acc + d) rest
      | none => none

/-- Digits of a base, the first of them a digit. -/
def number (base : Nat) : List Char → Option Nat
  | [] => none
  | c :: rest =>
    match digitValue base c with
    | some d => digits base d rest
    | none => none

/-- A numeric literal: `0x` hexadecimal or decimal (R84). -/
def literal : List Char → Option Nat
  | '0' :: 'x' :: rest => number 16 rest
  | cs => number 10 cs

/-- The name `rN` (R84), N a decimal number. DESIGN CHOICE: no other name of an earlier result is read; R84
binds `rN` only, but 95_test_vectors.md P4 writes `e0` for the result of a host read (log entry 15). -/
def resultNumber : List Char → Option Nat
  | 'r' :: rest => number 10 rest
  | _ => none

/-- The flag of a name (R170). -/
def flagNamed : List Char → Option Flag
  | ['V'] => some .V
  | ['R'] => some .R
  | ['W'] => some .W
  | ['X'] => some .X
  | ['U'] => some .U
  | ['G'] => some .G
  | ['A'] => some .A
  | ['D'] => some .D
  | _ => none

/-- A written operand (R84). -/
def operandNamed (cs : List Char) : Option AsmOperand :=
  match literal cs with
  | some n => some (.num n)
  | none =>
    match resultNumber cs with
    | some n => some (.name n)
    | none => ((cutAt '|' cs).mapM flagNamed).map .flags

/-- The five pseudo-instructions by name (R85). -/
def pseudoTable : List (String × Pseudo) :=
  [("PTE_LEAF", .pteLeaf), ("PTE_NODE", .pteNode), ("CANON", .canon), ("PTE_PA", .ptePa),
   ("VA_OF_PAGE", .vaOfPage)]

/-- The operation or pseudo-instruction of a name (R80, R85). -/
def headNamed (name : String) : Option AsmHead :=
  match (maskingRows ++ pageRows ++ pteRows).find? (·.mnemonic == name) with
  | some row => some (.core row.pattern)
  | none => (pseudoTable.find? (·.1 == name)).map (fun p => .pseudo p.2)

/-- The mnemonic and the operand texts of the part after `=`. -/
def headAndOperands (cs : List Char) : List Char × List (List Char) :=
  let name := cs.takeWhile (· ≠ ' ')
  let rest := trim (cs.drop name.length)
  (name, if rest.isEmpty then [] else (cutAt ',' rest).map trim)

/-- A written line `rN = MNEMONIC operands` (R84). -/
def parseLine (text : String) : Except AsmError AsmLine :=
  match cutAt '=' text.toList with
  | [left, right] =>
    match resultNumber (trim left), headAndOperands (trim right) with
    | some n, (name, ops) =>
      match headNamed (String.ofList name) with
      | none => .error .noSuchMnemonic
      | some head =>
        match ops.mapM operandNamed with
        | some os => .ok { dest := n, head := head, operands := os }
        | none => .error .malformed
    | none, _ => .error .malformed
  | _ => .error .malformed

/-- The lines of a program's text, in order (R84). -/
def parseProgram : List String → Except AsmError (List AsmLine)
  | [] => .ok []
  | text :: rest =>
    match parseLine text with
    | .error e => .error e
    | .ok l =>
      match parseProgram rest with
      | .error e => .error e
      | .ok ls => .ok (l :: ls)

end Sys2Proof.Machine
end

