-- ==== Sys2Proof/Machine/Block.lean ====
section
/-! DEFINITION. The block as the spec gives it: a total function of the request and of the build
parameter alone (30_encoding.md R70, 10_state.md R20). -/

namespace Sys2Proof.Machine

/-- The response to a decoded request. -/
def evalInstr (config : Config) : Instr → Response
  | .paFromWord w => evalPaFromWord w
  | .ppnFromWord w => evalPpnFromWord w
  | .vaFromWord w => evalVaFromWord w
  | .vpnFromWord w => evalVpnFromWord w
  | .vaToWord v => evalVaToWord v
  | .tokenRootPpn t => evalTokenRootPpn t
  | .paPageOffset v => evalPaPageOffset v
  | .paAligned v => evalPaAligned v
  | .vaPageOffset v => evalVaPageOffset v
  | .vaAligned v => evalVaAligned v
  | .paFloor v => evalPaFloor v
  | .paCeil v => evalPaCeil config v
  | .paToPpn v => evalPaToPpn v
  | .ppnToPa p => evalPpnToPa p
  | .vaFloor v => evalVaFloor v
  | .vaCeil v => evalVaCeil config v
  | .vaToVpn v => evalVaToVpn v
  | .vpnToVa p => evalVpnToVa p
  | .vpnIndex0 p => evalVpnIndex0 p
  | .vpnIndex1 p => evalVpnIndex1 p
  | .vpnIndex2 p => evalVpnIndex2 p
  | .pteNew p f => evalPteNew p f
  | .pteEmpty => evalPteEmpty
  | .ptePpn e => evalPtePpn e
  | .pteFlags e => evalPteFlags e
  | .pteIsValid e => evalPteIsValid e
  | .reserved1101x x => evalReserved1101x x
  | .reserved111xx x => evalReserved111xx x

/-- `eval : Request → Response`, for a build (R70). -/
def eval (config : Config) (q : Request) : Response := evalInstr config (decode q)

end Sys2Proof.Machine
end

