-- ==== Sys2Proof/Safety.lean ====
section
/-! DEFINITION. What counts as a sound host context and how a run ends, in the terms the claims use
(20_memory.md R60, 60_exceptions.md R207, 70_reset_and_hazards.md R239). -/

namespace Sys2Proof.Machine

/-- The nodes of an owning table form a tree by walk depth: the root is owned and has depth 0; a valid
entry of an owned node above the leaf level names an owned node one deeper; no two such entries name
the same node. R60 asks that the named nodes be owned; depth and uniqueness make it survive a write. -/
structure Table.Tree (m : Memory) (tb : Table) (depth : PPN → Nat) : Prop where
  rootOwned : tb.root ∈ tb.owned
  rootDepth : depth tb.root = 0
  child : ∀ n ∈ tb.owned, depth n < 2 → ∀ i c, enter m n i = some c → c ∈ tb.owned ∧ depth c = depth n + 1
  unique : ∀ n ∈ tb.owned, ∀ n' ∈ tb.owned, depth n < 2 → depth n' < 2 →
    ∀ i i' c, enter m n i = some c → enter m n' i' = some c → n = n' ∧ i = i'

/-- An owning table is a tree of owned nodes; a view owns nothing (R58, R60). -/
def Table.Sound (m : Memory) (tb : Table) : Prop :=
  match tb.kind with
  | .owner => ∃ depth, tb.Tree m depth
  | .view => tb.owned = []

/-- The host context is sound: memory is in its canonical form, every live table is sound, and no frame
is owned twice (R60, 93_implementation_defined.md I16). -/
structure State.Sound (s : State) : Prop where
  memory : s.mem.wf
  table : ∀ t tb, s.table? t = some tb → tb.Sound s.mem
  frames : s.ownedFrames.Nodup

/-- The containment R60 states: every frame named by a valid entry at walk steps 0 and 1 of an owning
table is in its owned collection. -/
def State.NodesOwned (s : State) : Prop :=
  ∀ t tb, s.table? t = some tb → tb.kind = .owner →
    ∀ i0 n1, enter s.mem tb.root i0 = some n1 → n1 ∈ tb.owned ∧
      ∀ i1 n2, enter s.mem n1 i1 = some n2 → n2 ∈ tb.owned

/-- Intermediate nodes missing on the path of a page (R53, R60). -/
def missingNodes (m : Memory) (root : PPN) (vpn : VPN) : Nat :=
  match enter m root (vpnIndex0 vpn) with
  | none => 2
  | some n1 =>
    match enter m n1 (vpnIndex1 vpn) with
    | none => 1
    | some _ => 0

/-- A failed end (R207, R239). -/
def State.Failed (s : State) : Prop := ∃ c, s.status = .failed c

/-- A successful end (R239). -/
def State.Succeeded (s : State) : Prop := s.status = .succeeded

/-- The block answers the request `(op, a, b)` with the result `y`, and the response is all that changes. -/
abbrev Gives (s : State) (op : OpCode) (a b y : Word) : Prop :=
  exec (decode { op := op, a := a, b := b }) s = .next (s.withResponse (.result y))

/-- The block answers the request `(op, a, b)` with the fault `c`, and the response is all that changes. -/
abbrev Faults (s : State) (op : OpCode) (a b : Word) (c : FaultCode) : Prop :=
  exec (decode { op := op, a := a, b := b }) s = .next (s.withResponse (.fault c))

/-- The bits of `a` an operation code reads: the column "operands read" of the opcode map (R80, R74). -/
def readMaskA (op : OpCode) : Word :=
  if op ∈ [0x00#5, 0x01#5, 0x02#5, 0x03#5, 0x05#5, 0x17#5, 0x18#5, 0x19#5] then 0xFFFFFFFFFFFFFFFF#64
  else if op ∈ [0x06#5, 0x07#5, 0x0a#5, 0x0b#5, 0x0c#5] then 0x00FFFFFFFFFFFFFF#64
  else if op ∈ [0x04#5, 0x08#5, 0x09#5, 0x0e#5, 0x0f#5, 0x10#5] then 0x0000007FFFFFFFFF#64
  else if op ∈ [0x0d#5, 0x15#5] then 0x00000FFFFFFFFFFF#64
  else if op ∈ [0x11#5, 0x12#5, 0x13#5, 0x14#5] then 0x0000000007FFFFFF#64
  else 0#64

/-- The bits of `b` an operation code reads: the flag set of PTE_NEW, else none (R73, R80). -/
def readMaskB (op : OpCode) : Word := if op = 0x15#5 then 0xFF#64 else 0#64

/-- A word is canonical: bits 63:39 all equal bit 38 (10_state.md R27, 40_address_masking.md R108). -/
def Canonical (w : Word) : Prop := ∀ i, 39 ≤ i → i < 64 → w.getLsbD i = w.getLsbD 38

end Sys2Proof.Machine
end

