-- ==== Sys2Proof/Certificates/Slice0/Obligations.lean ====
section
/-! DEFINITION. The statements for the provers. Each docstring names the rule of spec/ it formalises. -/

open Sys2Proof Sys2Proof.Machine

/-! ## Encoding -/

/-- Requests written out from R80: op in binary, a typed operand in the low slice of its bus (R74). -/
def Obligations.SpecWordsDecodeAsListed : Prop :=
  decode { op := 0b00000#5, a := 0xFFFFFFFFFFFFFFFF#64, b := 0#64 } = .paFromWord 0xFFFFFFFFFFFFFFFF#64 ∧
  decode { op := 0b00100#5, a := 0xFFFFFF8000000001#64, b := 0#64 } = .vaToWord 0x1#39 ∧
  decode { op := 0b01100#5, a := 0xFF00000080000000#64, b := 0#64 } = .paToPpn 0x80000000#56 ∧
  decode { op := 0b10010#5, a := 0xFFFFFFFFF8000000#64, b := 0#64 } = .vpnIndex0 0#27 ∧
  decode { op := 0b10101#5, a := 0xFFFFF00000000001#64, b := 0xFFFFFFFFFFFFFF01#64 } = .pteNew 0x1#44 0x01#8 ∧
  decode { op := 0b10110#5, a := 0xFFFFFFFFFFFFFFFF#64, b := 0xFFFFFFFFFFFFFFFF#64 } = .pteEmpty ∧
  decode { op := 0b11010#5, a := 0#64, b := 0#64 } = .reserved1101x 0#1 ∧
  decode { op := 0b11111#5, a := 0#64, b := 0#64 } = .reserved111xx 3#2

/-- Decode and encode agree for every instruction, as a request and as a number (R74, R80). -/
def Obligations.EncodedInstructionsDecodeBack : Prop :=
  ∀ i : Instr, decode (encode i) = i ∧ Request.ofNumber (encode i).number = encode i ∧
    decodeNumber (encode i).number = .ok i

/-- R75: ignored operand bits and ignored buses are not read. -/
def Obligations.UnreadBusBitsNeverMatter : Prop :=
  ∀ q q' : Request, q.op = q'.op → q.a &&& readMaskA q.op = q'.a &&& readMaskA q.op →
    q.b &&& readMaskB q.op = q'.b &&& readMaskB q.op →
    ∀ s : State, ∃ r, exec (decode q) s = .next (s.withResponse r) ∧ exec (decode q') s = .next (s.withResponse r)

/-- R80, R82: every 5-bit code hits exactly one row of the opcode map, and the decoder gives that row. -/
def Obligations.EveryCodeHitsItsOneRow : Prop :=
  ∀ q : Request, (opcodeTable.filter (fun row => row.hits q.op)).map (·.mnemonic) = [(decode q).mnemonic]

/-! ## The block: one answer, no state -/

/-- R20, R70: every request is answered with one response, which depends on the request and the build
alone, and a request has no effect but its response. -/
def Obligations.AnswerDependsOnRequestAndBuildAlone : Prop :=
  ∀ (q : Request) (s s' : State), s.config = s'.config →
    ∃ r, exec (decode q) s = .next (s.withResponse r) ∧ exec (decode q) s' = .next (s'.withResponse r)

/-- R72, R77, R78: the lines of a response. -/
def Obligations.ResponseLinesFollowTheTable : Prop :=
  (∀ y, (Response.result y).faultBit = false ∧ (Response.result y).fcode = 0#3 ∧ (Response.result y).y = some y) ∧
  (∀ c, (Response.fault c).faultBit = true ∧ (Response.fault c).y = none) ∧
  (Response.fault .illegalOp).fcode = 1#3 ∧ (Response.fault .misaligned).fcode = 2#3 ∧
  (Response.fault .ceilOverflow).fcode = 3#3 ∧ (Response.fault .ceilZero).fcode = 4#3

/-- R81, R201: a reserved code reads no operand and answers ILLEGAL_OP. -/
def Obligations.ReservedCodesAnswerIllegalOp : Prop :=
  (∀ (op : OpCode) (a b : Word) (s : State), 0x1a#5 ≤ op → Faults s op a b .illegalOp) ∧
  (∀ (x : BitVec 1) (s : State), exec (.reserved1101x x) s = .next (s.withResponse (.fault .illegalOp))) ∧
  (∀ (x : BitVec 2) (s : State), exec (.reserved111xx x) s = .next (s.withResponse (.fault .illegalOp))) ∧
  (Response.fault .illegalOp).fcode = 1#3

/-- R201 to R206: a request faults with a code exactly under that code's cause, and under no other; the codes
are numbered 1 to 4, so 5, 6 and 7 are never produced. -/
def Obligations.FaultsHappenExactlyAsListed : Prop :=
  (FaultCode.illegalOp.number = 1#3 ∧ FaultCode.misaligned.number = 2#3 ∧ FaultCode.ceilOverflow.number = 3#3 ∧
    FaultCode.ceilZero.number = 4#3 ∧ ∀ c : FaultCode, c.number ≠ 0#3 ∧ c.number ≠ 5#3 ∧ c.number ≠ 6#3 ∧ c.number ≠ 7#3) ∧
  ∀ (i : Instr) (s : State) (c : FaultCode),
    exec i s = .next (s.withResponse (.fault c)) ↔
      (c = .illegalOp ∧ ((∃ x, i = .reserved1101x x) ∨ ∃ x, i = .reserved111xx x)) ∨
      (c = .misaligned ∧ ((∃ v, i = .paToPpn v ∧ v.toNat % 4096 ≠ 0) ∨ ∃ v, i = .vaToVpn v ∧ v.toNat % 4096 ≠ 0)) ∨
      (c = .ceilOverflow ∧ ((∃ v, i = .paCeil v ∧ v.toNat > 2 ^ 56 - 4096) ∨
        ∃ v, i = .vaCeil v ∧ v.toNat > 2 ^ 39 - 4096)) ∨
      (c = .ceilZero ∧ s.config.ceilZeroFaults = true ∧ (i = .paCeil 0#56 ∨ i = .vaCeil 0#39))

/-! ## Width masking and canonicalization -/

/-- R100 to R103, R110: the narrowing operations and the root token keep the low bits and never fault. -/
def Obligations.NarrowingKeepsTheLowBits : Prop :=
  ∀ (a b : Word) (s : State),
    (decode { op := 0x00#5, a := a, b := b } = .paFromWord a ∧
      exec (.paFromWord a) s = .next (s.withResponse (.result (BitVec.ofNat 64 (a.toNat % 2 ^ 56))))) ∧
    (decode { op := 0x01#5, a := a, b := b } = .ppnFromWord a ∧
      exec (.ppnFromWord a) s = .next (s.withResponse (.result (BitVec.ofNat 64 (a.toNat % 2 ^ 44))))) ∧
    (decode { op := 0x02#5, a := a, b := b } = .vaFromWord a ∧
      exec (.vaFromWord a) s = .next (s.withResponse (.result (BitVec.ofNat 64 (a.toNat % 2 ^ 39))))) ∧
    (decode { op := 0x03#5, a := a, b := b } = .vpnFromWord a ∧
      exec (.vpnFromWord a) s = .next (s.withResponse (.result (BitVec.ofNat 64 (a.toNat % 2 ^ 27))))) ∧
    (decode { op := 0x05#5, a := a, b := b } = .tokenRootPpn a ∧
      exec (.tokenRootPpn a) s = .next (s.withResponse (.result (BitVec.ofNat 64 (a.toNat % 2 ^ 44)))))

/-- R104: VA_TO_WORD puts 25 ones above bit 38 when it is set, and zero extends otherwise. -/
def Obligations.VaToWordCopiesBit38 : Prop :=
  ∀ (a b : Word) (s : State), decode { op := 0x04#5, a := a, b := b } = .vaToWord (a.extractLsb' 0 39) ∧
    exec (.vaToWord (a.extractLsb' 0 39)) s = .next (s.withResponse (.result
      (if a.getLsbD 38 then 0x1FFFFFF#25 ++ a.extractLsb' 0 39 else (a.extractLsb' 0 39).setWidth 64)))

/-- R106: the width bounds of the narrowing operations. -/
def Obligations.NarrowResultsFitTheirWidths : Prop :=
  ∀ (w b : Word) (s : State), ∃ y0 y1 y2 y3, Gives s 0x00#5 w b y0 ∧ y0.toNat < 2 ^ 56 ∧
    Gives s 0x01#5 w b y1 ∧ y1.toNat < 2 ^ 44 ∧ Gives s 0x03#5 w b y3 ∧ y3.toNat < 2 ^ 27 ∧
    Gives s 0x02#5 w b y2 ∧ y2.toNat < 2 ^ 39

/-- R107: the canonicalization law. -/
def Obligations.WideningIsCanonical : Prop :=
  ∀ (v : VA) (b : Word) (s : State), ∃ y, Gives s 0x04#5 (v.setWidth 64) b y ∧ Canonical y ∧
    (v.getLsbD 38 = true → y.toNat / 2 ^ 39 = 2 ^ 25 - 1) ∧ (v.getLsbD 38 = false → y = v.setWidth 64)

/-- R108: narrowing undoes widening, and widening undoes narrowing exactly on canonical words. -/
def Obligations.NarrowWidenRoundTrips : Prop :=
  ∀ (b : Word) (s : State),
    (∀ v : VA, ∃ y, Gives s 0x04#5 (v.setWidth 64) b y ∧ Gives s 0x02#5 y b (v.setWidth 64)) ∧
    (∀ w : Word, ∃ n y, Gives s 0x02#5 w b n ∧ Gives s 0x04#5 n b y ∧ (y = w ↔ Canonical w) ∧ Canonical y ∧
      y.toNat % 2 ^ 39 = w.toNat % 2 ^ 39)

/-- R109, R111: narrowing its own result changes nothing, and a token's root PPN is the word's PPN. -/
def Obligations.NarrowingIsIdempotent : Prop :=
  ∀ (w b : Word) (s : State),
    (∀ op ∈ [0x00#5, 0x01#5, 0x02#5, 0x03#5], ∃ y, Gives s op w b y ∧ Gives s op y b y) ∧
    (∀ y, Gives s 0x05#5 w b y ↔ Gives s 0x01#5 w b y)

/-! ## Page arithmetic -/

/-- R130 to R133: the page offset is the remainder by 4096, and aligned means that it is 0. -/
def Obligations.PageOffsetAndAlignment : Prop :=
  ∀ (a b : Word) (s : State),
    (decode { op := 0x06#5, a := a, b := b } = .paPageOffset (a.extractLsb' 0 56) ∧
      exec (.paPageOffset (a.extractLsb' 0 56)) s = .next (s.withResponse (.result (BitVec.ofNat 64 (a.toNat % 4096))))) ∧
    (decode { op := 0x07#5, a := a, b := b } = .paAligned (a.extractLsb' 0 56) ∧
      exec (.paAligned (a.extractLsb' 0 56)) s =
        .next (s.withResponse (.result (if a.toNat % 4096 = 0 then 1#64 else 0#64)))) ∧
    (decode { op := 0x08#5, a := a, b := b } = .vaPageOffset (a.extractLsb' 0 39) ∧
      exec (.vaPageOffset (a.extractLsb' 0 39)) s = .next (s.withResponse (.result (BitVec.ofNat 64 (a.toNat % 4096))))) ∧
    (decode { op := 0x09#5, a := a, b := b } = .vaAligned (a.extractLsb' 0 39) ∧
      exec (.vaAligned (a.extractLsb' 0 39)) s =
        .next (s.withResponse (.result (if a.toNat % 4096 = 0 then 1#64 else 0#64))))

/-- R136, R142: floor divides the operand by the page size. -/
def Obligations.FloorDividesByPageSize : Prop :=
  ∀ (a b : Word) (s : State),
    (decode { op := 0x0a#5, a := a, b := b } = .paFloor (a.extractLsb' 0 56) ∧
      exec (.paFloor (a.extractLsb' 0 56)) s =
        .next (s.withResponse (.result (BitVec.ofNat 64 (a.toNat % 2 ^ 56 / 4096))))) ∧
    (decode { op := 0x0e#5, a := a, b := b } = .vaFloor (a.extractLsb' 0 39) ∧
      exec (.vaFloor (a.extractLsb' 0 39)) s =
        .next (s.withResponse (.result (BitVec.ofNat 64 (a.toNat % 2 ^ 39 / 4096)))))

/-- R137, R143, with the zero case of R134 and the top-page case of R135: ceil in every build. -/
def Obligations.CeilRoundsUpOrFaults : Prop :=
  ∀ (a b : Word) (s : State),
    (decode { op := 0x0b#5, a := a, b := b } = .paCeil (a.extractLsb' 0 56) ∧
      exec (.paCeil (a.extractLsb' 0 56)) s = .next (s.withResponse
        (if a.toNat % 2 ^ 56 = 0 then (if s.config.ceilZeroFaults then .fault .ceilZero else .result 0#64)
         else if (a.toNat % 2 ^ 56 - 1 + 4096) / 4096 = 2 ^ 44 then .fault .ceilOverflow
         else .result (BitVec.ofNat 64 ((a.toNat % 2 ^ 56 - 1 + 4096) / 4096))))) ∧
    (decode { op := 0x0f#5, a := a, b := b } = .vaCeil (a.extractLsb' 0 39) ∧
      exec (.vaCeil (a.extractLsb' 0 39)) s = .next (s.withResponse
        (if a.toNat % 2 ^ 39 = 0 then (if s.config.ceilZeroFaults then .fault .ceilZero else .result 0#64)
         else if (a.toNat % 2 ^ 39 - 1 + 4096) / 4096 = 2 ^ 27 then .fault .ceilOverflow
         else .result (BitVec.ofNat 64 ((a.toNat % 2 ^ 39 - 1 + 4096) / 4096)))))

/-- R138, R144, R202: the alignment-requiring conversions. -/
def Obligations.ConversionsRequireAlignment : Prop :=
  ∀ (a b : Word) (s : State),
    (decode { op := 0x0c#5, a := a, b := b } = .paToPpn (a.extractLsb' 0 56) ∧
      exec (.paToPpn (a.extractLsb' 0 56)) s = .next (s.withResponse
        (if a.toNat % 4096 ≠ 0 then .fault .misaligned
         else .result (BitVec.ofNat 64 (a.toNat % 2 ^ 56 / 4096))))) ∧
    (decode { op := 0x10#5, a := a, b := b } = .vaToVpn (a.extractLsb' 0 39) ∧
      exec (.vaToVpn (a.extractLsb' 0 39)) s = .next (s.withResponse
        (if a.toNat % 4096 ≠ 0 then .fault .misaligned
         else .result (BitVec.ofNat 64 (a.toNat % 2 ^ 39 / 4096)))))

/-- R139, R145: page numbers become addresses by a shift of 12, without a fault. -/
def Obligations.PageNumbersShiftByTwelve : Prop :=
  ∀ (a b : Word) (s : State),
    (decode { op := 0x0d#5, a := a, b := b } = .ppnToPa (a.extractLsb' 0 44) ∧
      exec (.ppnToPa (a.extractLsb' 0 44)) s =
        .next (s.withResponse (.result (BitVec.ofNat 64 (a.toNat % 2 ^ 44 * 4096))))) ∧
    (decode { op := 0x11#5, a := a, b := b } = .vpnToVa (a.extractLsb' 0 27) ∧
      exec (.vpnToVa (a.extractLsb' 0 27)) s =
        .next (s.withResponse (.result (BitVec.ofNat 64 (a.toNat % 2 ^ 27 * 4096)))))

/-- R150 to R152: the three level indices of a page number. -/
def Obligations.LevelIndicesAreNineBitFields : Prop :=
  ∀ (a b : Word) (s : State),
    (decode { op := 0x12#5, a := a, b := b } = .vpnIndex0 (a.extractLsb' 0 27) ∧
      exec (.vpnIndex0 (a.extractLsb' 0 27)) s =
        .next (s.withResponse (.result (BitVec.ofNat 64 (a.toNat % 2 ^ 27 / 2 ^ 18))))) ∧
    (decode { op := 0x13#5, a := a, b := b } = .vpnIndex1 (a.extractLsb' 0 27) ∧
      exec (.vpnIndex1 (a.extractLsb' 0 27)) s =
        .next (s.withResponse (.result (BitVec.ofNat 64 (a.toNat % 2 ^ 18 / 2 ^ 9))))) ∧
    (decode { op := 0x14#5, a := a, b := b } = .vpnIndex2 (a.extractLsb' 0 27) ∧
      exec (.vpnIndex2 (a.extractLsb' 0 27)) s =
        .next (s.withResponse (.result (BitVec.ofNat 64 (a.toNat % 2 ^ 9)))))

/-- R140: the physical round trip. -/
def Obligations.PhysicalPageRoundTrip : Prop :=
  ∀ (b : Word) (s : State),
    (∀ a : PA, a.toNat % 4096 = 0 → ∃ p, Gives s 0x0c#5 (a.setWidth 64) b p ∧ Gives s 0x0d#5 p b (a.setWidth 64)) ∧
    (∀ p : PPN, ∃ a, Gives s 0x0d#5 (p.setWidth 64) b a ∧ Gives s 0x0c#5 a b (p.setWidth 64))

/-- R146: the virtual round trip. -/
def Obligations.VirtualPageRoundTrip : Prop :=
  ∀ (b : Word) (s : State),
    (∀ p : VPN, ∃ v, Gives s 0x11#5 (p.setWidth 64) b v ∧ Gives s 0x10#5 v b (p.setWidth 64)) ∧
    (∀ v : VA, v.toNat % 4096 = 0 → ∃ p, Gives s 0x10#5 (v.setWidth 64) b p ∧ Gives s 0x11#5 p b (v.setWidth 64))

/-- R141: floor and ceil relations, for physical (0x0A, 0x0B, 0x0C) and virtual (0x0E, 0x0F, 0x10) operands. -/
def Obligations.FloorAndCeilRelations : Prop :=
  ∀ (b : Word) (s : State),
    (∀ (v : PA) (c : Word), v ≠ 0#56 → Gives s 0x0b#5 (v.setWidth 64) b c →
      ∃ f, Gives s 0x0a#5 (v.setWidth 64) b f ∧ f.toNat ≤ c.toNat ∧ c.toNat ≤ f.toNat + 1 ∧
        (c = f ↔ v.toNat % 4096 = 0)) ∧
    (∀ (v : VA) (c : Word), v ≠ 0#39 → Gives s 0x0f#5 (v.setWidth 64) b c →
      ∃ f, Gives s 0x0e#5 (v.setWidth 64) b f ∧ f.toNat ≤ c.toNat ∧ c.toNat ≤ f.toNat + 1 ∧
        (c = f ↔ v.toNat % 4096 = 0)) ∧
    (∀ v : PA, v.toNat % 4096 = 0 → ∃ f, Gives s 0x0a#5 (v.setWidth 64) b f ∧ Gives s 0x0c#5 (v.setWidth 64) b f) ∧
    (∀ v : VA, v.toNat % 4096 = 0 → ∃ f, Gives s 0x0e#5 (v.setWidth 64) b f ∧ Gives s 0x10#5 (v.setWidth 64) b f)

/-- R153: the three indices of a page number put together give it back, each below 512. -/
def Obligations.IndicesReassembleThePageNumber : Prop :=
  ∀ (v : VPN) (b : Word) (s : State), ∃ i0 i1 i2,
    Gives s 0x12#5 (v.setWidth 64) b i0 ∧ Gives s 0x13#5 (v.setWidth 64) b i1 ∧ Gives s 0x14#5 (v.setWidth 64) b i2 ∧
    i0.toNat < 512 ∧ i1.toNat < 512 ∧ i2.toNat < 512 ∧ (i0 <<< 18) ||| (i1 <<< 9) ||| i2 = v.setWidth 64

/-- R154: the indices of an address are its bits 38:30, 29:21 and 20:12. -/
def Obligations.IndicesOfAnAddress : Prop :=
  ∀ (v : VA) (b : Word) (s : State), ∃ p, Gives s 0x0e#5 (v.setWidth 64) b p ∧
    Gives s 0x12#5 p b ((v.extractLsb' 30 9).setWidth 64) ∧ Gives s 0x13#5 p b ((v.extractLsb' 21 9).setWidth 64) ∧
    Gives s 0x14#5 p b ((v.extractLsb' 12 9).setWidth 64)

/-! ## The PTE codec -/

/-- R180, R181: packing, with the unnamed bits 0, and the empty sentinel with what its accessors give. -/
def Obligations.PteNewPacksAndPteEmptyIsZero : Prop :=
  ∀ (a b : Word) (s : State),
    (decode { op := 0x15#5, a := a, b := b } = .pteNew (a.extractLsb' 0 44) (b.extractLsb' 0 8) ∧
      exec (.pteNew (a.extractLsb' 0 44) (b.extractLsb' 0 8)) s = .next (s.withResponse (.result
        (BitVec.ofNat 64 (a.toNat % 2 ^ 44 * 2 ^ 10 + b.toNat % 2 ^ 8))))) ∧
    (decode { op := 0x16#5, a := a, b := b } = .pteEmpty ∧
      exec .pteEmpty s = .next (s.withResponse (.result 0#64)) ∧
      Gives s 0x17#5 0#64 b 0#64 ∧ Gives s 0x18#5 0#64 b 0#64 ∧ Gives s 0x19#5 0#64 b 0#64)

/-- R182 to R184: the accessors of an entry, valid or not. -/
def Obligations.PteAccessorsReadTheirFields : Prop :=
  ∀ (a b : Word) (s : State),
    (decode { op := 0x17#5, a := a, b := b } = .ptePpn a ∧
      exec (.ptePpn a) s = .next (s.withResponse (.result (BitVec.ofNat 64 (a.toNat / 2 ^ 10 % 2 ^ 44))))) ∧
    (decode { op := 0x18#5, a := a, b := b } = .pteFlags a ∧
      exec (.pteFlags a) s = .next (s.withResponse (.result (BitVec.ofNat 64 (a.toNat % 2 ^ 8))))) ∧
    (decode { op := 0x19#5, a := a, b := b } = .pteIsValid a ∧
      exec (.pteIsValid a) s = .next (s.withResponse (.result (BitVec.ofNat 64 (a.toNat % 2)))))

/-- R185: the pack/unpack round trip. -/
def Obligations.PackedEntriesUnpack : Prop :=
  ∀ (p : PPN) (f : Flags) (b : Word) (s : State), ∃ e, Gives s 0x15#5 (p.setWidth 64) (f.setWidth 64) e ∧
    Gives s 0x17#5 e b (p.setWidth 64) ∧ Gives s 0x18#5 e b (f.setWidth 64)

/-- R186: packing what was unpacked clears bits 63:54 and 9:8 and keeps the rest. -/
def Obligations.UnpackedEntriesPack : Prop :=
  ∀ (e b : Word) (s : State), ∃ p f y, Gives s 0x17#5 e b p ∧ Gives s 0x18#5 e b f ∧ Gives s 0x15#5 p f y ∧
    y = e &&& 0x003FFFFFFFFFFCFF#64 ∧
    (y = e ↔ ∀ i, i < 64 → (54 ≤ i ∨ i = 8 ∨ i = 9) → e.getLsbD i = false)

/-- R187: validity of packed entries and of the empty sentinel. -/
def Obligations.PackedValidityIsTheVFlag : Prop :=
  ∀ (p : PPN) (f : Flags) (b : Word) (s : State),
    (∃ e, Gives s 0x15#5 (p.setWidth 64) (f.setWidth 64) e ∧
      Gives s 0x19#5 e b (if f.getLsbD 0 then 1#64 else 0#64)) ∧
    (∃ e, Gives s 0x16#5 0#64 b e ∧ Gives s 0x19#5 e b 0#64 ∧ Gives s 0x15#5 0#64 0#64 e)

/-- R188: PTE_NEW is injective. -/
def Obligations.PteNewIsInjective : Prop :=
  ∀ (p p' : PPN) (f f' : Flags) (e : Word) (s s' : State), Gives s 0x15#5 (p.setWidth 64) (f.setWidth 64) e →
    Gives s' 0x15#5 (p'.setWidth 64) (f'.setWidth 64) e → p = p' ∧ f = f'

/-- R170: the bit and mask of each flag, the spec's own decision D9 (log entry 10), and a flag set holds exactly the flags it was made of. -/
def Obligations.FlagBitsFollowTheTable : Prop :=
  flagMask .V = 0x01#8 ∧ flagMask .R = 0x02#8 ∧ flagMask .W = 0x04#8 ∧ flagMask .X = 0x08#8 ∧
  flagMask .U = 0x10#8 ∧ flagMask .G = 0x20#8 ∧ flagMask .A = 0x40#8 ∧ flagMask .D = 0x80#8 ∧
  ∀ (fs : List Flag) (f : Flag), (flagSet fs).getLsbD (flagBit f) = true ↔ f ∈ fs

/-! ## The host run -/

/-- A step of a running host whose next line is a request runs the decoded request: `exec` of it on the
state with the line taken and the request on the buses, then the host's reaction (R84, R70). -/
def Obligations.StepRunsTheDecodedRequest : Prop :=
  (∀ (s : State) (d : ResultName) (op : OpCode) (oa ob : Operand) (a b : Word) (rest : List Line),
    s.status = .running → s.program = .request d op oa ob :: rest → s.operand oa = .ok a → s.operand ob = .ok b →
    step s = react d (exec (decode { op := op, a := a, b := b })
      ((s.withProgram rest).issue { op := op, a := a, b := b }))) ∧
  (∀ (s : State) (nbits w : Nat) (i : Instr), decodeTableWord nbits w = some i → ∃ q, decode q = i ∧
    step (s.withFetchWord nbits w) = react (.r 0) (exec i ({ s with program := [], status := .running }.issue q)))

/-- R84, R239: a request, its operands literals or names of earlier results, that is answered with a result
binds it, changes nothing else of the host's, and ends the run successfully exactly when it was the last line. -/
def Obligations.AnsweredRequestsBindTheirResult : Prop :=
  ∀ (s : State) (d : ResultName) (op : OpCode) (oa ob : Operand) (a b y : Word) (rest : List Line),
    s.status = .running → s.program = .request d op oa ob :: rest → s.operand oa = .ok a → s.operand ob = .ok b →
    Gives s op a b y →
    ∃ t, step s = .next t ∧ t.request = some { op := op, a := a, b := b } ∧ t.response = some (.result y) ∧
      t.lookup d = some (.word y) ∧ (∀ x, x ≠ d → t.lookup x = s.lookup x) ∧ t.program = rest ∧
      (t.status = .succeeded ↔ rest = []) ∧ (t.status = .running ↔ rest ≠ []) ∧ t.config = s.config ∧
      t.mem = s.mem ∧ t.tables = s.tables ∧ t.frames = s.frames ∧ t.stale = s.stale

/-- R207, R239, R200: a faulted response to a request, its operands literals or names of earlier results, ends
the run in failure, with nothing bound or written, and no later line is issued. That memory, tables, frames and old translations are as before in the failed state is
the model's choice (log entry 20): R239 does not say what happens to memory after a halt. -/
def Obligations.FaultedResponsesEndTheRun : Prop :=
  ∀ (s : State) (d : ResultName) (op : OpCode) (oa ob : Operand) (a b : Word) (c : FaultCode) (rest : List Line),
    s.status = .running → s.program = .request d op oa ob :: rest → s.operand oa = .ok a → s.operand ob = .ok b →
    Faults s op a b c →
    ∃ t, step s = .next t ∧ t.request = some { op := op, a := a, b := b } ∧ t.response = some (.fault c) ∧
      t.Failed ∧ ¬ t.Succeeded ∧ t.bindings = s.bindings ∧ t.mem = s.mem ∧ t.tables = s.tables ∧
      t.frames = s.frames ∧ t.stale = s.stale ∧ t.config = s.config ∧ step t = .fault (.halted c)

/-- R239: a step that goes on never leaves an ended run, and a successful end comes only after the last
line, without a fault. -/
def Obligations.EndedRunsStayEnded : Prop :=
  ∀ s t : State, step s = .next t → ¬ s.Failed ∧ ¬ s.Succeeded ∧ (t.Succeeded → t.program = [])

/-- R231: no step changes the build parameter. -/
def Obligations.StepKeepsTheBuild : Prop := ∀ s t : State, step s = .next t → t.config = s.config

/-- R230: after reset a request is answered as in any state of the same build. That the build after reset is
the spec's default of R7 is the model's choice (log entry 2: by R231 the parameter is no state and reset does
not change it), and so is that no request and no response stand on the buses (log entry 1). -/
def Obligations.FirstRequestAfterResetIsAnsweredAsAnyOther : Prop :=
  State.reset.config.ceilZeroFaults = false ∧ State.reset.request = none ∧ State.reset.response = none ∧
  ∀ (q : Request) (s : State), s.config = State.reset.config →
    ∃ r, exec (decode q) State.reset = .next (State.reset.withResponse r) ∧ exec (decode q) s = .next (s.withResponse r)

/-- R85: each pseudo-instruction expands to the requests listed, CANON, PTE_PA and VA_OF_PAGE through an
intermediate result `t`; the assembler ORs V into a literal flag set, a number or flag names, and refuses a
result name there (log entry 15). -/
def Obligations.PseudoInstructionsExpandAsListed : Prop :=
  ∀ (n m : Nat) (x f : AsmOperand) (w : Word), x.wf = true → f.wf = true → foldOperand f = .lit w →
    (∀ k, foldOperand (.num k) = .lit (BitVec.ofNat 64 k)) ∧ (∀ k, foldOperand (.name k) = .res (.r k)) ∧
    (∀ fs, foldOperand (.flags fs) = .lit ((flagSet fs).setWidth 64)) ∧
    assembleLine { dest := n, head := .pseudo .pteLeaf, operands := [x, f] } =
      .ok [.request (.r n) 0x15#5 (foldOperand x) (.lit (w ||| 1#64))] ∧
    assembleLine { dest := n, head := .pseudo .pteLeaf, operands := [x, .name m] } = .error .flagsNotLiteral ∧
    assembleLine { dest := n, head := .pseudo .pteNode, operands := [x] } =
      .ok [.request (.r n) 0x15#5 (foldOperand x) (.lit 1#64)] ∧
    assembleLine { dest := n, head := .pseudo .canon, operands := [x] } =
      .ok [.request (.t n) 0x02#5 (foldOperand x) (.lit 0#64), .request (.r n) 0x04#5 (.res (.t n)) (.lit 0#64)] ∧
    assembleLine { dest := n, head := .pseudo .ptePa, operands := [x] } =
      .ok [.request (.t n) 0x17#5 (foldOperand x) (.lit 0#64), .request (.r n) 0x0d#5 (.res (.t n)) (.lit 0#64)] ∧
    assembleLine { dest := n, head := .pseudo .vaOfPage, operands := [x] } =
      .ok [.request (.t n) 0x11#5 (foldOperand x) (.lit 0#64), .request (.r n) 0x04#5 (.res (.t n)) (.lit 0#64)]

/-! ## Host memory -/

/-- R45: a PTE read returns the last PTE written to the slot, and other slots are not touched. -/
def Obligations.PteReadsReturnTheLastWrite : Prop :=
  ∀ (m : Memory) (n n' : PPN) (i i' : LevelIndex) (e : PTE), m.wf →
    (m.writePTE (slot n i) e).readPTE (slot n' i') = if n' = n ∧ i' = i then e else m.readPTE (slot n' i')

/-- R41: byte k of a slot holds PTE bits 8k+7:8k, written and read, the spec's own decision D10 (log entry 10);
bytes outside the eight stay. -/
def Obligations.PtesAreLittleEndian : Prop :=
  ∀ (m : Memory) (a : PA), m.wf → a.toNat + 8 ≤ Config.physBytes →
    (∀ (e : PTE) (k : Nat), k < 8 → (m.writePTE a e).readByte (a.toNat + k) = e.extractLsb' (8 * k) 8) ∧
    (∀ k, k < 8 → (m.readPTE a).extractLsb' (8 * k) 8 = m.readByte (a.toNat + k)) ∧
    (∀ (e : PTE) (x : Nat), x < a.toNat ∨ a.toNat + 8 ≤ x → (m.writePTE a e).readByte x = m.readByte x)

/-- R50, R42: the slot of an entry, in its frame, at a multiple of 8, and different for different entries. -/
def Obligations.SlotAddressesFollowTheLayout : Prop :=
  ∀ (n n' : PPN) (i i' : LevelIndex),
    (slot n i).toNat = n.toNat * 4096 + 8 * i.toNat ∧ (slot n i).toNat % 8 = 0 ∧ inFrame n (slot n i).toNat = true ∧
    (slot n i = slot n' i' → n = n' ∧ i = i')

/-- R11, R41: a memRead line, its base and index literals or names of earlier results, binds the eight bytes at
base + 8 * index in the little-endian order of the spec's decision D10 (log entry 10) and changes nothing else
of the host's. The model's choice (log entry 14): what a read that is not at a multiple of 8 binds (R42 says
that none arises), that the address does not wrap, and the stop by name outside the physical space (R32). -/
def Obligations.MemReadBindsTheWordAtItsAddress : Prop :=
  ∀ (s : State) (d : ResultName) (base index : Operand) (x i : Word) (rest : List Line),
    s.status = .running → s.program = .memRead d base index :: rest → s.operand base = .ok x →
    s.operand index = .ok i →
    (x.toNat + 8 * i.toNat + 8 ≤ 2 ^ 56 → ∃ t w, step s = .next t ∧ t.lookup d = some (.word w) ∧
      (∀ k, k < 8 → w.extractLsb' (8 * k) 8 = s.mem.readByte (x.toNat + 8 * i.toNat + k)) ∧
      (∀ n, n ≠ d → t.lookup n = s.lookup n) ∧ t.mem = s.mem ∧ t.tables = s.tables ∧ t.frames = s.frames ∧
      t.stale = s.stale) ∧
    (2 ^ 56 < x.toNat + 8 * i.toNat + 8 → step s = .fault (.outsidePhysicalMemory (x.toNat + 8 * i.toNat)))

/-! ## The page-table software -/

/-- R51, R53, R182, R184: a walk goes from the root through the entries at the indices that the block answers to
VPN_INDEX0, VPN_INDEX1 and VPN_INDEX2, in that order, with or without creation; a walk step enters the node
that the block's PTE_PPN answers where its PTE_IS_VALID answers 1; a creating step does so too and changes
nothing where the entry is valid, and where it is not it stores what the block's PTE_NEW answers for the fresh
frame and the flag set 0x01. -/
def Obligations.WalkStepsUseTheBlock : Prop :=
  (∀ (vpn : VPN) (config : Config), ∃ i0 i1 i2 : LevelIndex,
    eval config { op := 0x12#5, a := vpn.setWidth 64, b := 0#64 } = .result (i0.setWidth 64) ∧
    eval config { op := 0x13#5, a := vpn.setWidth 64, b := 0#64 } = .result (i1.setWidth 64) ∧
    eval config { op := 0x14#5, a := vpn.setWidth 64, b := 0#64 } = .result (i2.setWidth 64) ∧
    (∀ (m : Memory) (root : PPN), find m root vpn =
      (enter m root i0).bind fun n1 => (enter m n1 i1).bind fun n2 => some (slot n2 i2)) ∧
    (∀ (taken : List PPN) (root : PPN) (w : Walk), findCreate taken root vpn w =
      (enterCreate taken root i0 w).bind fun p1 => (enterCreate taken p1.1 i1 p1.2).bind fun p2 =>
        some (slot p2.1 i2, p2.2))) ∧
  (∀ (m : Memory) (node : PPN) (i : LevelIndex) (config : Config), ∃ (v : Word) (p : PPN),
    eval config { op := 0x19#5, a := m.readPTE (slot node i), b := 0#64 } = .result v ∧
    eval config { op := 0x17#5, a := m.readPTE (slot node i), b := 0#64 } = .result (p.setWidth 64) ∧
    enter m node i = if v = 1#64 then some p else none) ∧
  (∀ (taken : List PPN) (node n : PPN) (i : LevelIndex) (w : Walk),
    enter w.mem node i = some n → enterCreate taken node i w = some (n, w)) ∧
  (∀ (taken : List PPN) (node f : PPN) (i : LevelIndex) (w w' : Walk) (config : Config),
    enter w.mem node i = none → enterCreate taken node i w = some (f, w') →
    ∃ e, eval config { op := 0x15#5, a := f.setWidth 64, b := 1#64 } = .result e ∧
      w'.mem = (w.mem.zeroFrame f).writePTE (slot node i) e ∧ w'.added = w.added ++ [f])

/-- The host context is sound after reset. It rests on the host fields that are empty after reset (log entries
4 and 9): the empty memory is canonical, and there is no table to be unsound. -/
def Obligations.ResetIsSound : Prop := State.reset.Sound

/-- R60, I16: every step keeps the host context sound: canonical memory, every owning table a tree of
its own frames, no frame owned twice. -/
def Obligations.StepKeepsTheContextSound : Prop := ∀ s t : State, s.Sound → step s = .next t → t.Sound

/-- R60: in a sound context every frame named by a valid entry at walk steps 0 and 1 of an owning table
is in its owned collection. -/
def Obligations.SoundTablesOwnTheirNodes : Prop := ∀ s : State, s.Sound → s.NodesOwned

/-- R59, R61, R232: construct takes an unowned frame, and the new table owns exactly that root, whose 512
entries read as empty; without a frame it is fatal (R208). That the allocator passes over owned frames and is
exhausted exactly when it offers owned frames only is the model's choice (log entry 8). -/
def Obligations.ConstructMakesAnEmptyTable : Prop :=
  ∀ (s : State) (rest : List Line), s.status = .running → s.program = .construct :: rest →
    ((∀ f ∈ s.frames, f ∈ s.ownedFrames) → step s = .fault (.hostHalt .allocatorExhausted)) ∧
    ((∃ f ∈ s.frames, f ∉ s.ownedFrames) → ∃ t f, step s = .next t ∧ f ∈ s.frames ∧ f ∉ s.ownedFrames ∧
      t.table? s.tables.length = some { root := f, owned := [f], kind := .owner } ∧
      (∀ i, t.mem.readPTE (slot f i) = 0#64) ∧ (∀ a, inFrame f a = false → t.mem.readByte a = s.mem.readByte a) ∧
      (∀ k, k < s.tables.length → t.table? k = s.table? k))

/-- R58, R110: from_root_token makes a view of the token's low 44 bits that owns nothing, and touches
neither memory nor the allocator. That map and unmap refuse a view is the model's reading of "used only
to read" (log entry 13). -/
def Obligations.ViewsOwnNothingAndOnlyRead : Prop :=
  (∀ (s : State) (token : Word) (rest : List Line), s.status = .running → s.program = .fromRootToken token :: rest →
    ∃ t, step s = .next t ∧ t.table? s.tables.length =
        some { root := BitVec.ofNat 44 token.toNat, owned := [], kind := .view } ∧
      t.mem = s.mem ∧ t.frames = s.frames ∧ t.ownedFrames = s.ownedFrames) ∧
  (∀ (s : State) (k : Nat) (tb : Table) (vpn : VPN) (ppn : PPN) (flags : Flags), s.table? k = some tb →
    tb.kind = .view → hostMap k vpn ppn flags s = .refused (.viewIsReadOnly k) ∧
      hostUnmap k vpn s = .refused (.viewIsReadOnly k))

/-- R54: in a sound context, where a map goes on, the page's leaf then is PTE_NEW(ppn, flags | 0x01). When it
goes on is MapGoesOnOrHalts. -/
def Obligations.MapThenTranslateGivesTheLeaf : Prop :=
  ∀ (s t : State) (k : Nat) (tb : Table) (vpn : VPN) (ppn : PPN) (flags : Flags) (rest : List Line), s.Sound →
    s.status = .running → s.program = .map k vpn ppn flags :: rest → s.table? k = some tb → step s = .next t →
    translation t.mem tb.root vpn = some (pteNew ppn (flags ||| 0x01#8))

/-- R54, R53, R208: when map goes on and when it is fatal, in a sound context, for an owning table. On a valid
leaf it is fatal. On a page whose leaf is not valid it goes on when the allocator offers, for each node missing
on the path, a frame of its own that no table owns: none for a complete path, one, or two. Where it does not
offer that many it is fatal. What counts as offered and as exhausted is the model's choice (log entry 8). -/
def Obligations.MapGoesOnOrHalts : Prop :=
  ∀ (s : State) (k : Nat) (tb : Table) (vpn : VPN) (ppn : PPN) (flags : Flags) (rest : List Line), s.Sound →
    s.status = .running → s.program = .map k vpn ppn flags :: rest → s.table? k = some tb → tb.kind = .owner →
    ((∃ e, translation s.mem tb.root vpn = some e ∧ pteIsValid e = true) →
      step s = .fault (.hostHalt .mapOfValidLeaf)) ∧
    ((∀ e, translation s.mem tb.root vpn = some e → pteIsValid e = false) →
      (∃ new : List PPN, new.Nodup ∧ new.length = missingNodes s.mem tb.root vpn ∧
        ∀ f ∈ new, f ∈ s.frames ∧ f ∉ s.ownedFrames) → ∃ t, step s = .next t) ∧
    ((¬ ∃ new : List PPN, new.Nodup ∧ new.length = missingNodes s.mem tb.root vpn ∧
        ∀ f ∈ new, f ∈ s.frames ∧ f ∉ s.ownedFrames) → step s = .fault (.hostHalt .allocatorExhausted))

/-- In a sound context map leaves every other page of the table and every page of every other owning table
as it was; a page whose leaf node the map created may turn from absent to an empty, invalid leaf. Pages of a
view are left out: a view may look into the table that is mapped. -/
def Obligations.MapLeavesOtherPagesAlone : Prop :=
  ∀ (s t : State) (k k' : Nat) (tb tb' : Table) (vpn vpn' : VPN) (ppn : PPN) (flags : Flags) (rest : List Line),
    s.Sound → s.status = .running → s.program = .map k vpn ppn flags :: rest → s.table? k = some tb →
    s.table? k' = some tb' → tb'.kind = .owner → (k' ≠ k ∨ vpn' ≠ vpn) → step s = .next t →
    translation t.mem tb'.root vpn' = translation s.mem tb'.root vpn' ∨
      (k' = k ∧ translation s.mem tb'.root vpn' = none ∧ translation t.mem tb'.root vpn' = some 0#64)

/-- R60: map adds to the owned frames of its table exactly one frame for each node missing on the page's
path, each offered by the allocator and owned by no table before; no other table's frames change. -/
def Obligations.MapOwnsOneFramePerMissingNode : Prop :=
  ∀ (s t : State) (k : Nat) (tb : Table) (vpn : VPN) (ppn : PPN) (flags : Flags) (rest : List Line), s.Sound →
    s.status = .running → s.program = .map k vpn ppn flags :: rest → s.table? k = some tb → step s = .next t →
    ∃ new : List PPN, t.table? k = some { tb with owned := tb.owned ++ new } ∧
      new.length = missingNodes s.mem tb.root vpn ∧ new.Nodup ∧ (∀ f ∈ new, f ∈ s.frames ∧ f ∉ s.ownedFrames) ∧
      ∀ k', k' ≠ k → t.table? k' = s.table? k'

/-- The memory frame of map: only bytes of frames its table owns afterwards change. Of the frames it owned
before, only eight bytes change: the leaf slot the walk finds where no node was missing, else the slot of the
missing entry, at walk step 0 or 1. -/
def Obligations.MapWritesOnlyItsOwnFrames : Prop :=
  ∀ (s t : State) (k : Nat) (tb : Table) (vpn : VPN) (ppn : PPN) (flags : Flags) (rest : List Line), s.Sound →
    s.status = .running → s.program = .map k vpn ppn flags :: rest → s.table? k = some tb → step s = .next t →
    (∀ a, (∀ tb1 f, t.table? k = some tb1 → f ∈ tb1.owned → inFrame f a = false) →
      t.mem.readByte a = s.mem.readByte a) ∧
    (∀ leaf, find s.mem tb.root vpn = some leaf → ∀ a, a < leaf.toNat ∨ leaf.toNat + 8 ≤ a →
      t.mem.readByte a = s.mem.readByte a) ∧
    (enter s.mem tb.root (vpnIndex0 vpn) = none → ∀ f ∈ tb.owned, ∀ a, inFrame f a = true →
      (a < (slot tb.root (vpnIndex0 vpn)).toNat ∨ (slot tb.root (vpnIndex0 vpn)).toNat + 8 ≤ a) →
      t.mem.readByte a = s.mem.readByte a) ∧
    (∀ n1, enter s.mem tb.root (vpnIndex0 vpn) = some n1 → enter s.mem n1 (vpnIndex1 vpn) = none →
      ∀ f ∈ tb.owned, ∀ a, inFrame f a = true →
      (a < (slot n1 (vpnIndex1 vpn)).toNat ∨ (slot n1 (vpnIndex1 vpn)).toNat + 8 ≤ a) →
      t.mem.readByte a = s.mem.readByte a)

/-- R56, R208: unmap writes the empty sentinel to the leaf slot and nothing else, keeps every frame, and is
fatal through a missing node and on an invalid leaf. -/
def Obligations.UnmapEmptiesTheLeafOrHalts : Prop :=
  ∀ (s : State) (k : Nat) (tb : Table) (vpn : VPN) (rest : List Line), s.Sound → s.status = .running →
    s.program = .unmap k vpn :: rest → s.table? k = some tb → tb.kind = .owner →
    (find s.mem tb.root vpn = none → step s = .fault (.hostHalt .unmapThroughMissingNode)) ∧
    (∀ e, translation s.mem tb.root vpn = some e → pteIsValid e = false →
      step s = .fault (.hostHalt .unmapOfInvalidLeaf)) ∧
    (∀ leaf e, find s.mem tb.root vpn = some leaf → translation s.mem tb.root vpn = some e → pteIsValid e = true →
      ∃ t, step s = .next t ∧ translation t.mem tb.root vpn = some 0#64 ∧ t.tables = s.tables ∧ t.frames = s.frames ∧
        ∀ a, a < leaf.toNat ∨ leaf.toNat + 8 ≤ a → t.mem.readByte a = s.mem.readByte a)

/-- R57: translate binds the leaf entry, valid or not, or absent where an intermediate node is missing, and
writes nothing. -/
def Obligations.TranslateReadsAndWritesNothing : Prop :=
  ∀ (s : State) (d : ResultName) (k : Nat) (tb : Table) (vpn : VPN) (rest : List Line), s.status = .running →
    s.program = .translate d k vpn :: rest → s.table? k = some tb →
    ∃ t, step s = .next t ∧ t.mem = s.mem ∧ t.tables = s.tables ∧ t.frames = s.frames ∧ t.stale = s.stale ∧
      (missingNodes s.mem tb.root vpn ≠ 0 → t.lookup d = some .absent) ∧
      (∀ n1 n2, enter s.mem tb.root (vpnIndex0 vpn) = some n1 → enter s.mem n1 (vpnIndex1 vpn) = some n2 →
        t.lookup d = some (.word (s.mem.readPTE (slot n2 (vpnIndex2 vpn)))))

/-- R60: destroying a table releases its frames, and no frame of another table. -/
def Obligations.DestroyReleasesTheFrames : Prop :=
  ∀ (s : State) (k : Nat) (tb : Table) (rest : List Line), s.Sound → s.status = .running →
    s.program = .destroy k :: rest → s.table? k = some tb →
    ∃ t, step s = .next t ∧ t.table? k = none ∧ (∀ k', k' ≠ k → t.table? k' = s.table? k') ∧
      ∀ f, f ∈ t.ownedFrames ↔ f ∈ s.ownedFrames ∧ f ∉ tb.owned

/-- R47, R235: after map or unmap of a page both its old and its new translation are admitted; every step that
goes on, other than one that issues an invalidation, keeps every old translation; and after an invalidation the
present one alone is admitted (the list of old translations is the model's form, log entry 11). -/
def Obligations.StaleTranslationsLastUntilInvalidation : Prop :=
  (∀ (s t : State) (k : Nat) (tb : Table) (vpn : VPN) (ppn : PPN) (flags : Flags) (rest : List Line),
    s.status = .running → (s.program = .map k vpn ppn flags :: rest ∨ s.program = .unmap k vpn :: rest) →
    s.table? k = some tb → step s = .next t →
    { root := tb.root, vpn := vpn, old := translation s.mem tb.root vpn } ∈ t.stale ∧
    translation s.mem tb.root vpn ∈ t.admitted tb.root vpn ∧ translation t.mem tb.root vpn ∈ t.admitted tb.root vpn) ∧
  (∀ (s t : State), step s = .next t → (∀ rest, s.program ≠ .invalidate :: rest) →
    ∀ e ∈ s.stale, e ∈ t.stale ∧ e.old ∈ t.admitted e.root e.vpn) ∧
  (∀ (s : State) (rest : List Line) (root : PPN) (vpn : VPN), s.status = .running → s.program = .invalidate :: rest →
    ∃ t, step s = .next t ∧ t.mem = s.mem ∧ t.stale = [] ∧ t.admitted root vpn = [translation s.mem root vpn])

/-- R47, R235: a use of a page by the processor can see each admitted translation, and sees no other. -/
def Obligations.ProcessorSeesExactlyAdmittedTranslations : Prop :=
  ∀ (s : State) (d : ResultName) (k : Nat) (tb : Table) (vpn : VPN) (x : Option PTE), s.table? k = some tb →
    (x ∈ s.admitted tb.root vpn ↔ ∃ pick, processorUse d k vpn pick s = .next (s.bind d (entryValue x)))

/-- R236: a status write by the processor changes only A and D of a valid stored leaf: every other bit of the
leaf, every byte outside its slot, and the tables, the frames, the old translations and the results stay. On a
page without a valid leaf nothing changes. The event is the model's form (log entry 12); that A is bit 6 and D
is bit 7 is R170, the spec's own decision D9 (log entry 10). -/
def Obligations.StatusWritesChangeOnlyAAndD : Prop :=
  ∀ (s : State) (k : Nat) (tb : Table) (vpn : VPN) (accessed dirty : Bool) (rest : List Line), s.mem.wf →
    s.status = .running → s.program = .processorStatus k vpn accessed dirty :: rest → s.table? k = some tb →
    ∃ t, step s = .next t ∧ t.tables = s.tables ∧ t.frames = s.frames ∧ t.stale = s.stale ∧
      t.bindings = s.bindings ∧
      (∀ leaf e, find s.mem tb.root vpn = some leaf → translation s.mem tb.root vpn = some e → pteIsValid e = true →
        (∃ e', translation t.mem tb.root vpn = some e' ∧ e'.getLsbD 6 = accessed ∧ e'.getLsbD 7 = dirty ∧
          ∀ i, i ≠ 6 → i ≠ 7 → e'.getLsbD i = e.getLsbD i) ∧
        ∀ a, a < leaf.toNat ∨ leaf.toNat + 8 ≤ a → t.mem.readByte a = s.mem.readByte a) ∧
      ((∀ e, translation s.mem tb.root vpn = some e → pteIsValid e = false) → t.mem = s.mem)
end

