-- ==== Sys2Proof/Laws/State.lean ====
section
/-! SUPPORT. One lemma per field per named update of the state, each true by rfl, so that no proof
unfolds a record update. -/

namespace Sys2Proof.Machine

variable (s : State)

/-! ## withResponse -/

@[simp] theorem State.withResponse_config (r : Response) : (s.withResponse r).config = s.config := rfl
@[simp] theorem State.withResponse_request (r : Response) : (s.withResponse r).request = s.request := rfl
@[simp] theorem State.withResponse_response (r : Response) : (s.withResponse r).response = some r := rfl
@[simp] theorem State.withResponse_program (r : Response) : (s.withResponse r).program = s.program := rfl
@[simp] theorem State.withResponse_bindings (r : Response) : (s.withResponse r).bindings = s.bindings := rfl
@[simp] theorem State.withResponse_status (r : Response) : (s.withResponse r).status = s.status := rfl
@[simp] theorem State.withResponse_mem (r : Response) : (s.withResponse r).mem = s.mem := rfl
@[simp] theorem State.withResponse_tables (r : Response) : (s.withResponse r).tables = s.tables := rfl
@[simp] theorem State.withResponse_frames (r : Response) : (s.withResponse r).frames = s.frames := rfl
@[simp] theorem State.withResponse_stale (r : Response) : (s.withResponse r).stale = s.stale := rfl

/-! ## issue -/

@[simp] theorem State.issue_config (q : Request) : (s.issue q).config = s.config := rfl
@[simp] theorem State.issue_request (q : Request) : (s.issue q).request = some q := rfl
@[simp] theorem State.issue_response (q : Request) : (s.issue q).response = none := rfl
@[simp] theorem State.issue_program (q : Request) : (s.issue q).program = s.program := rfl
@[simp] theorem State.issue_bindings (q : Request) : (s.issue q).bindings = s.bindings := rfl
@[simp] theorem State.issue_status (q : Request) : (s.issue q).status = s.status := rfl
@[simp] theorem State.issue_mem (q : Request) : (s.issue q).mem = s.mem := rfl
@[simp] theorem State.issue_tables (q : Request) : (s.issue q).tables = s.tables := rfl
@[simp] theorem State.issue_frames (q : Request) : (s.issue q).frames = s.frames := rfl
@[simp] theorem State.issue_stale (q : Request) : (s.issue q).stale = s.stale := rfl

/-! ## bind -/

@[simp] theorem State.bind_config (x : ResultName) (v : Value) : (s.bind x v).config = s.config := rfl
@[simp] theorem State.bind_request (x : ResultName) (v : Value) : (s.bind x v).request = s.request := rfl
@[simp] theorem State.bind_response (x : ResultName) (v : Value) : (s.bind x v).response = s.response := rfl
@[simp] theorem State.bind_program (x : ResultName) (v : Value) : (s.bind x v).program = s.program := rfl
@[simp] theorem State.bind_bindings (x : ResultName) (v : Value) : (s.bind x v).bindings = s.bindings.filter (fun p => !(p.1 == x)) ++ [(x, v)] := rfl
@[simp] theorem State.bind_status (x : ResultName) (v : Value) : (s.bind x v).status = s.status := rfl
@[simp] theorem State.bind_mem (x : ResultName) (v : Value) : (s.bind x v).mem = s.mem := rfl
@[simp] theorem State.bind_tables (x : ResultName) (v : Value) : (s.bind x v).tables = s.tables := rfl
@[simp] theorem State.bind_frames (x : ResultName) (v : Value) : (s.bind x v).frames = s.frames := rfl
@[simp] theorem State.bind_stale (x : ResultName) (v : Value) : (s.bind x v).stale = s.stale := rfl

/-! ## finish -/

@[simp] theorem State.finish_config : (s.finish).config = s.config := rfl
@[simp] theorem State.finish_request : (s.finish).request = s.request := rfl
@[simp] theorem State.finish_response : (s.finish).response = s.response := rfl
@[simp] theorem State.finish_program : (s.finish).program = s.program := rfl
@[simp] theorem State.finish_bindings : (s.finish).bindings = s.bindings := rfl
@[simp] theorem State.finish_status : (s.finish).status = if s.program.isEmpty then .succeeded else .running := rfl
@[simp] theorem State.finish_mem : (s.finish).mem = s.mem := rfl
@[simp] theorem State.finish_tables : (s.finish).tables = s.tables := rfl
@[simp] theorem State.finish_frames : (s.finish).frames = s.frames := rfl
@[simp] theorem State.finish_stale : (s.finish).stale = s.stale := rfl

/-! ## withProgram -/

@[simp] theorem State.withProgram_config (rest : List Line) : (s.withProgram rest).config = s.config := rfl
@[simp] theorem State.withProgram_request (rest : List Line) : (s.withProgram rest).request = s.request := rfl
@[simp] theorem State.withProgram_response (rest : List Line) : (s.withProgram rest).response = s.response := rfl
@[simp] theorem State.withProgram_program (rest : List Line) : (s.withProgram rest).program = rest := rfl
@[simp] theorem State.withProgram_bindings (rest : List Line) : (s.withProgram rest).bindings = s.bindings := rfl
@[simp] theorem State.withProgram_status (rest : List Line) : (s.withProgram rest).status = s.status := rfl
@[simp] theorem State.withProgram_mem (rest : List Line) : (s.withProgram rest).mem = s.mem := rfl
@[simp] theorem State.withProgram_tables (rest : List Line) : (s.withProgram rest).tables = s.tables := rfl
@[simp] theorem State.withProgram_frames (rest : List Line) : (s.withProgram rest).frames = s.frames := rfl
@[simp] theorem State.withProgram_stale (rest : List Line) : (s.withProgram rest).stale = s.stale := rfl

/-! ## fail -/

@[simp] theorem State.fail_config (c : FaultCode) : (s.fail c).config = s.config := rfl
@[simp] theorem State.fail_request (c : FaultCode) : (s.fail c).request = s.request := rfl
@[simp] theorem State.fail_response (c : FaultCode) : (s.fail c).response = s.response := rfl
@[simp] theorem State.fail_program (c : FaultCode) : (s.fail c).program = s.program := rfl
@[simp] theorem State.fail_bindings (c : FaultCode) : (s.fail c).bindings = s.bindings := rfl
@[simp] theorem State.fail_status (c : FaultCode) : (s.fail c).status = .failed c := rfl
@[simp] theorem State.fail_mem (c : FaultCode) : (s.fail c).mem = s.mem := rfl
@[simp] theorem State.fail_tables (c : FaultCode) : (s.fail c).tables = s.tables := rfl
@[simp] theorem State.fail_frames (c : FaultCode) : (s.fail c).frames = s.frames := rfl
@[simp] theorem State.fail_stale (c : FaultCode) : (s.fail c).stale = s.stale := rfl

/-! ## The table list reads the same where only other fields change -/

@[simp] theorem State.table?_withResponse (r : Response) (t : Nat) : (s.withResponse r).table? t = s.table? t := rfl
@[simp] theorem State.table?_issue (q : Request) (t : Nat) : (s.issue q).table? t = s.table? t := rfl
@[simp] theorem State.table?_bind (x : ResultName) (v : Value) (t : Nat) : (s.bind x v).table? t = s.table? t := rfl
@[simp] theorem State.table?_finish (t : Nat) : s.finish.table? t = s.table? t := rfl
@[simp] theorem State.table?_withProgram (rest : List Line) (t : Nat) : (s.withProgram rest).table? t = s.table? t := rfl
@[simp] theorem State.table?_fail (c : FaultCode) (t : Nat) : (s.fail c).table? t = s.table? t := rfl
@[simp] theorem State.ownedFrames_withProgram (rest : List Line) : (s.withProgram rest).ownedFrames = s.ownedFrames := rfl
@[simp] theorem State.ownedFrames_fail (c : FaultCode) : (s.fail c).ownedFrames = s.ownedFrames := rfl
@[simp] theorem State.ownedFrames_withResponse (r : Response) : (s.withResponse r).ownedFrames = s.ownedFrames := rfl
@[simp] theorem State.ownedFrames_issue (q : Request) : (s.issue q).ownedFrames = s.ownedFrames := rfl
@[simp] theorem State.ownedFrames_bind (x : ResultName) (v : Value) : (s.bind x v).ownedFrames = s.ownedFrames := rfl
@[simp] theorem State.ownedFrames_finish : s.finish.ownedFrames = s.ownedFrames := rfl

/-- A bound name reads as the value bound last. -/
theorem State.lookup_bind_same (x : ResultName) (v : Value) : (s.bind x v).lookup x = some v := by
  have h : (s.bindings.filter (fun p => !(p.1 == x))).find? (·.1 == x) = none := by
    simp [List.find?_eq_none]
  simp [State.lookup, List.find?_append, h]

/-- Binding one name leaves every other name as it was. -/
theorem State.lookup_bind_other (x z : ResultName) (v : Value) (h : z ≠ x) :
    (s.bind x v).lookup z = s.lookup z := by
  have hx : (x == z) = false := by simpa using fun e => h e.symm
  have hf : (s.bindings.filter (fun p => !(p.1 == x))).find? (·.1 == z) = s.bindings.find? (·.1 == z) := by
    rw [List.find?_filter]
    congr 1
    funext p
    by_cases hp : p.1 = z
    · subst hp; simp [h]
    · simp [hp]
  simp [State.lookup, List.find?_append, hf, hx]

end Sys2Proof.Machine
end

