-- ==== Sys2Proof/Laws/Block.lean ====
section
/-! SUPPORT. What answering a request does: every meaning writes the response and nothing else. -/

namespace Sys2Proof.Machine

/-- Answering writes the response; a fault is answered the same way as a result (30_encoding.md R72). -/
theorem respond_eq (r : Response) (s : State) : respond r s = .next (s.withResponse r) := by
  cases r <;> rfl

/-- Every instruction answers, and what it answers depends on the build and the instruction alone
(10_state.md R20, 30_encoding.md R70). -/
theorem exec_eq (i : Instr) (s : State) : exec i s = .next (s.withResponse (evalInstr s.config i)) := by
  cases i <;> simp only [exec, evalInstr, respond_eq, execPaFromWord, execPpnFromWord, execVaFromWord,
    execVpnFromWord, execVaToWord, execTokenRootPpn, execPaPageOffset, execPaAligned, execVaPageOffset,
    execVaAligned, execPaFloor, execPaCeil, execPaToPpn, execPpnToPa, execVaFloor, execVaCeil, execVaToVpn,
    execVpnToVa, execVpnIndex0, execVpnIndex1, execVpnIndex2, execPteNew, execPteEmpty, execPtePpn,
    execPteFlags, execPteIsValid, execReserved1101x, execReserved111xx]

/-- The same, from the request on the buses. -/
theorem exec_decode (q : Request) (s : State) :
    exec (decode q) s = .next (s.withResponse (eval s.config q)) := exec_eq _ _

/-! ## Small lemmas of the shared operations -/

theorem ceilResponse_zero (config : Config) (pages : Word) :
    ceilResponse config pages 0#64 = if config.ceilZeroFaults then .fault .ceilZero else .result 0#64 := by
  simp [ceilResponse]

theorem ceilResponse_nonzero (config : Config) (pages v : Word) (h : v ≠ 0#64) :
    ceilResponse config pages v =
      if ceilQuotient v = pages then .fault .ceilOverflow else .result (ceilQuotient v) := by
  simp [ceilResponse, h]

/-- The quotient of ceil is exact for a non-zero address of either type (41_page_arithmetic.md R137). -/
theorem ceilQuotient_toNat (v : Word) (h1 : v ≠ 0#64) (h2 : v.toNat ≤ 2 ^ 56) :
    (ceilQuotient v).toNat = (v.toNat + 4095) / 4096 := by
  have h0 : v.toNat ≠ 0 := fun e => h1 (BitVec.eq_of_toNat_eq e)
  simp only [ceilQuotient, BitVec.toNat_udiv, BitVec.toNat_add, BitVec.toNat_sub, BitVec.toNat_ofNat]
  have e : ((2 ^ 64 - 1 % 2 ^ 64 + v.toNat) % 2 ^ 64 + 4096 % 2 ^ 64) % 2 ^ 64 = v.toNat + 4095 := by omega
  rw [e]

theorem alignedResponse_aligned (y : Word) : alignedResponse 0#12 y = .result y := by
  simp [alignedResponse]

theorem alignedResponse_misaligned (o : PageOffset) (y : Word) (h : o ≠ 0#12) :
    alignedResponse o y = .fault .misaligned := by
  simp [alignedResponse, h]

theorem onBus_toNat {n : Nat} (v : BitVec n) (h : n ≤ 64) : (onBus v).toNat = v.toNat := by
  have hv : v.toNat < 2 ^ n := v.isLt
  have hp : 2 ^ n ≤ 2 ^ 64 := Nat.pow_le_pow_right (by decide) h
  simp only [onBus, BitVec.toNat_setWidth]
  exact Nat.mod_eq_of_lt (by omega)

/-! ## The codec's fields, as values -/

theorem ptePpn_pteNew (p : PPN) (f : Flags) : ptePpn (pteNew p f) = p := by
  apply BitVec.eq_of_getLsbD_eq
  intro i hi
  have h8 : f.getLsbD (10 + i) = false := BitVec.getLsbD_of_ge _ _ (by omega)
  simp only [ptePpn, pteNew, BitVec.getLsbD_extractLsb', BitVec.getLsbD_or, BitVec.getLsbD_shiftLeft,
    BitVec.getLsbD_setWidth, h8]
  simp [hi, show 10 + i < 64 by omega, show i < 64 by omega]

theorem pteIsValid_pteNew (p : PPN) (f : Flags) : pteIsValid (pteNew p f) = f.getLsbD 0 := by
  simp [pteIsValid, pteNew]

end Sys2Proof.Machine
end

