-- ==== Sys2Proof/Laws/Tables.lean ====
section
/-! SUPPORT. The table list and the owned frames (20_memory.md R58 to R60): what a table number reads after a
table is added, replaced or destroyed, and that frames stay owned once. -/

namespace Sys2Proof.Machine

/-- A live table splits the table list at its number. -/
theorem table_split {s : State} {k tb} (h : s.table? k = some tb) :
   ∃ l1 l2, s.tables = l1 ++ some tb :: l2 ∧ l1.length = k := by
  have hk : k < s.tables.length := by
    by_contra hc
    simp [State.table?, List.getD_eq_getElem?_getD, List.getElem?_eq_none (by omega : s.tables.length ≤ k)] at h
  refine ⟨s.tables.take k, s.tables.drop (k+1), ?_, by simp; omega⟩
  have : s.tables[k] = some tb := by
    simpa [State.table?, List.getD_eq_getElem?_getD, List.getElem?_eq_getElem hk] using h
  rw [← this]; simp

theorem getD_set_same {l : List (Option Table)} {k} (h : k < l.length) (x) : (l.set k x).getD k none = x := by
  simp [List.getD_eq_getElem?_getD, h]

theorem getD_set_other {l : List (Option Table)} {k k'} (h : k' ≠ k) (x) : (l.set k x).getD k' none = l.getD k' none := by
  simp [List.getD_eq_getElem?_getD, List.getElem?_set_ne (Ne.symm h)]

/-- A live table has a number below the length of the list. -/
theorem table_lt {s : State} {k tb} (h : s.table? k = some tb) : k < s.tables.length := by
    by_contra hc
    simp [State.table?, List.getD_eq_getElem?_getD, List.getElem?_eq_none (by omega : s.tables.length ≤ k)] at h

/-- A frame is owned when some live table owns it (R60). -/
theorem mem_owned (s : State) (f) : f ∈ s.ownedFrames ↔ ∃ k tb, s.table? k = some tb ∧ f ∈ tb.owned := by
  unfold State.ownedFrames State.table?
  rw [List.mem_flatMap]
  constructor
  · rintro ⟨o, ho, hf⟩
    obtain ⟨k, hk, rfl⟩ := List.mem_iff_getElem.mp ho
    cases hh : s.tables[k] with
    | none => rw [hh] at hf; simp [ownedOf] at hf
    | some tb =>
      rw [hh] at hf
      exact ⟨k, tb, by simp [List.getD_eq_getElem?_getD, hk, hh], hf⟩
  · rintro ⟨k, tb, h, hf⟩
    have hk := table_lt (s := s) h
    simp [List.getD_eq_getElem?_getD, hk] at h
    exact ⟨_, List.getElem_mem hk, by rw [h]; exact hf⟩

/-- Two tables share no frame. -/
theorem disjoint_tables {s : State} (hn : s.ownedFrames.Nodup) {k k' tb tb'} (h : s.table? k = some tb) (h' : s.table? k' = some tb')
   (hne : k' ≠ k) {f} (hf : f ∈ tb.owned) : f ∉ tb'.owned := by
  intro hf'
  obtain ⟨l1, l2, hl, hlen⟩ := table_split h
  unfold State.ownedFrames at hn
  rw [hl] at hn
  simp only [List.flatMap_append, List.flatMap_cons, ownedOf] at hn
  have hin : f ∈ l1.flatMap ownedOf ∨ f ∈ l2.flatMap ownedOf := by
    simp only [State.table?, hl, List.getD_eq_getElem?_getD] at h'
    rcases Nat.lt_trichotomy k' k with hlt | he | hgt
    · left
      rw [List.getElem?_append_left (by omega)] at h'
      have : k' < l1.length := by omega
      simp [this] at h'
      exact List.mem_flatMap.mpr ⟨_, List.getElem_mem this, by rw [h']; exact hf'⟩
    · exact absurd he hne
    · right
      rw [List.getElem?_append_right (by omega)] at h'
      obtain ⟨j, hj⟩ : ∃ j, k' - l1.length = j + 1 := ⟨k' - l1.length - 1, by omega⟩
      rw [hj, List.getElem?_cons_succ] at h'
      have hjl : j < l2.length := by
        by_contra hc; simp [List.getElem?_eq_none (by omega : l2.length ≤ j)] at h'
      simp [hjl] at h'
      exact List.mem_flatMap.mpr ⟨_, List.getElem_mem hjl, by rw [h']; exact hf'⟩
  rw [List.nodup_append] at hn
  obtain ⟨_, hn2, hn3⟩ := hn
  rw [List.nodup_append] at hn2
  rcases hin with hin | hin
  · exact hn3 f hin f (List.mem_append_left _ hf) rfl
  · exact hn2.2.2 f hf f hin rfl

/-- A table owns no frame twice. -/
theorem owned_nodup {s : State} (hn : s.ownedFrames.Nodup) {k tb} (h : s.table? k = some tb) : tb.owned.Nodup := by
  obtain ⟨l1, l2, hl, hlen⟩ := table_split h
  unfold State.ownedFrames at hn
  rw [hl] at hn
  simp only [List.flatMap_append, List.flatMap_cons, ownedOf] at hn
  rw [List.nodup_append] at hn
  have h2 := hn.2.1
  rw [List.nodup_append] at h2
  exact h2.1

/-- Frames stay owned once when a table takes unowned ones. -/
theorem nodup_grow {s : State} (hn : s.ownedFrames.Nodup) {k tb tb'} (h : s.table? k = some tb) {new : List PPN}
   (hnew : new.Nodup) (hfr : ∀ f ∈ new, f ∉ s.ownedFrames) (ho : tb'.owned = tb.owned ++ new) :
   ((s.tables.set k (some tb')).flatMap ownedOf).Nodup := by
  obtain ⟨l1, l2, hl, hlen⟩ := table_split h
  unfold State.ownedFrames at hn hfr
  subst hlen
  rw [hl] at hn hfr ⊢
  rw [List.set_append_right _ _ (by omega)]
  simp only [Nat.sub_self, List.set_cons_zero, List.flatMap_append, List.flatMap_cons, ownedOf, ho] at *
  simp only [List.nodup_append, List.mem_append] at *
  grind

/-- Frames stay owned once when a table is destroyed. -/
theorem nodup_drop {s : State} (hn : s.ownedFrames.Nodup) {k tb} (h : s.table? k = some tb) :
   ((s.tables.set k none).flatMap ownedOf).Nodup := by
  obtain ⟨l1, l2, hl, hlen⟩ := table_split h
  unfold State.ownedFrames at hn
  subst hlen
  rw [hl] at hn ⊢
  rw [List.set_append_right _ _ (by omega)]
  simp only [Nat.sub_self, List.set_cons_zero, List.flatMap_append, List.flatMap_cons, ownedOf] at *
  simp only [List.nodup_append, List.mem_append] at *
  grind

/-- What a live table owns is owned. -/
theorem owned_sub {s : State} {k tb} (h : s.table? k = some tb) : ∀ f ∈ tb.owned, f ∈ s.ownedFrames :=
  fun f hf => (mem_owned s f).mpr ⟨k, tb, h, hf⟩

theorem table_set_same {s : State} {k tb} (h : s.table? k = some tb) (x) (t : State) (ht : t.tables = s.tables.set k x) : t.table? k = x := by
  unfold State.table?; rw [ht]; exact getD_set_same (table_lt h) x

theorem table_set_other {s : State} {k k'} (h : k' ≠ k) (x) (t : State) (ht : t.tables = s.tables.set k x) : t.table? k' = s.table? k' := by
  unfold State.table?; rw [ht]; exact getD_set_other h x

/-- Making a table gives it the next number and leaves the others. -/
theorem append_table {s t : State} {x} (ht : t.tables = s.tables ++ [x]) : t.table? s.tables.length = x ∧ ∀ k, k < s.tables.length → t.table? k = s.table? k := by
  unfold State.table?
  rw [ht]
  constructor
  · simp [List.getD_eq_getElem?_getD]
  · intro k hk; simp [List.getD_eq_getElem?_getD, List.getElem?_append_left hk]

theorem append_table_inv {s t : State} {x} (ht : t.tables = s.tables ++ [x]) {k tb} (h : t.table? k = some tb) : (k = s.tables.length ∧ x = some tb) ∨ s.table? k = some tb := by
  have hl := table_lt h
  rw [ht] at hl; simp at hl
  by_cases hk : k < s.tables.length
  · right; rw [← (append_table ht).2 k hk]; exact h
  · left; have : k = s.tables.length := by omega
    subst this; rw [(append_table ht).1] at h; exact ⟨rfl, h⟩

end Sys2Proof.Machine
end

