-- ==== Sys2Proof/Laws/Memory.lean ====
section
/-! SUPPORT. Host memory: reads after writes, the canonical form, frames and slots. -/

namespace Sys2Proof.Machine.Memory

/-- The rising order of a memory's addresses, the part of `wf` that reads rest on. -/
abbrev Rising (m : Memory) : Prop := m.Pairwise (fun c d => c.1 < d.1)

/-! ## One byte -/

theorem readByte_below (m : Memory) (a : Nat) (h : ∀ c ∈ m, a < c.1) : m.readByte a = unlistedByte := by
  induction m with
  | nil => rfl
  | cons c rest ih =>
    have hc := h c (by simp)
    have : ¬ c.1 = a := by omega
    simp only [readByte, this, if_false]
    exact ih fun d hd => h d (by simp [hd])

theorem readByte_cons (m : Memory) (a a' : Nat) (b : Byte) (h : m.readByte a = unlistedByte) :
    readByte (cons a b m) a' = if a = a' then b else m.readByte a' := by
  unfold cons
  split
  · split
    · subst_vars; exact h
    · rfl
  · rfl

theorem readByte_writeByte_other (m : Memory) (a a' : Nat) (b : Byte) (h : a' ≠ a) :
    (m.writeByte a b).readByte a' = m.readByte a' := by
  have h' : ¬ a = a' := fun e => h e.symm
  have hcons : ∀ m : Memory, readByte (cons a b m) a' = m.readByte a' := by
    intro m; unfold cons; split <;> simp [readByte, h']
  induction m with
  | nil => exact hcons []
  | cons c rest ih =>
    simp only [writeByte]
    split
    · exact hcons _
    · split
      · rename_i _ e
        rw [hcons, readByte, if_neg (by omega)]
      · simp only [readByte]; split
        · rfl
        · exact ih

theorem readByte_writeByte_same (m : Memory) (a : Nat) (b : Byte) (h : m.Rising) :
    (m.writeByte a b).readByte a = b := by
  have hcons : ∀ m : Memory, m.readByte a = unlistedByte → readByte (cons a b m) a = b := by
    intro m hm; rw [readByte_cons m a a b hm, if_pos rfl]
  induction m with
  | nil => exact hcons [] rfl
  | cons c rest ih =>
    obtain ⟨hc, hrest⟩ := List.pairwise_cons.mp h
    simp only [writeByte]
    split
    · rename_i hlt
      refine hcons _ (readByte_below _ _ ?_)
      intro d hd
      rcases List.mem_cons.mp hd with rfl | hd
      · exact hlt
      · have := hc d hd; omega
    · split
      · rename_i _ e
        exact hcons _ (readByte_below _ _ fun d hd => e ▸ hc d hd)
      · rename_i h1 h2
        rw [readByte, if_neg (fun e => h2 e.symm)]
        exact ih hrest

theorem mem_cons_cell (m : Memory) (a : Nat) (b : Byte) (c : Host.Cell) (h : c ∈ cons a b m) :
    (c = (a, b) ∧ b ≠ unlistedByte) ∨ c ∈ m := by
  unfold cons at h
  split at h
  · exact .inr h
  · rename_i hb
    rcases List.mem_cons.mp h with h | h
    · exact .inl ⟨h, hb⟩
    · exact .inr h

theorem mem_writeByte (m : Memory) (a : Nat) (b : Byte) (c : Host.Cell) (h : c ∈ m.writeByte a b) :
    (c = (a, b) ∧ b ≠ unlistedByte) ∨ c ∈ m := by
  induction m with
  | nil => exact mem_cons_cell [] a b c h
  | cons d rest ih =>
    simp only [writeByte] at h
    split at h
    · exact mem_cons_cell _ a b c h
    · split at h
      · exact (mem_cons_cell _ a b c h).imp_right (List.mem_cons_of_mem _)
      · rcases List.mem_cons.mp h with h | h
        · exact .inr (by simp [h])
        · exact (ih h).imp_right (List.mem_cons_of_mem _)

theorem rising_cons (m : Memory) (a : Nat) (b : Byte) (h : m.Rising) (hlt : ∀ c ∈ m, a < c.1) :
    (cons a b m).Rising := by
  unfold cons
  split
  · exact h
  · exact List.pairwise_cons.mpr ⟨hlt, h⟩

theorem rising_writeByte (m : Memory) (a : Nat) (b : Byte) (h : m.Rising) : (m.writeByte a b).Rising := by
  induction m with
  | nil => exact rising_cons [] a b h (by simp)
  | cons d rest ih =>
    obtain ⟨hd, hrest⟩ := List.pairwise_cons.mp h
    simp only [writeByte]
    split
    · rename_i hlt
      refine rising_cons _ a b h ?_
      intro c hc
      rcases List.mem_cons.mp hc with rfl | hc
      · exact hlt
      · have := hd c hc; omega
    · split
      · rename_i _ e
        exact rising_cons _ a b hrest fun c hc => e ▸ hd c hc
      · refine List.pairwise_cons.mpr ⟨?_, ih hrest⟩
        intro c hc
        rcases mem_writeByte rest a b c hc with ⟨rfl, -⟩ | hc
        · show d.1 < a; omega
        · exact hd c hc

theorem wf_writeByte (m : Memory) (a : Nat) (b : Byte) (h : m.wf) (ha : a < Config.physBytes) :
    (m.writeByte a b).wf := by
  refine ⟨rising_writeByte m a b h.1, fun c hc => ?_⟩
  rcases mem_writeByte m a b c hc with ⟨rfl, hb⟩ | hc
  · exact ⟨hb, ha⟩
  · exact h.2 c hc

/-- Memory after reset is canonical. -/
theorem wf_reset : State.reset.mem.wf := by decide

/-! ## Several bytes -/

theorem rising_writeLE (m : Memory) (a n v : Nat) (h : m.Rising) : (m.writeLE a n v).Rising := by
  induction n generalizing m a v with
  | zero => exact h
  | succ n ih => exact ih _ _ _ (rising_writeByte m a _ h)

theorem wf_writeLE (m : Memory) (a n v : Nat) (h : m.wf) (ha : a + n ≤ Config.physBytes) :
    (m.writeLE a n v).wf := by
  induction n generalizing m a v with
  | zero => exact h
  | succ n ih => exact ih _ _ _ (wf_writeByte m a _ h (by omega)) (by omega)

theorem readByte_writeLE_other (m : Memory) (a n v a' : Nat) (h : a' < a ∨ a + n ≤ a') :
    (m.writeLE a n v).readByte a' = m.readByte a' := by
  induction n generalizing m a v with
  | zero => rfl
  | succ n ih =>
    rw [writeLE, ih _ _ _ (by omega), readByte_writeByte_other _ _ _ _ (by omega)]

theorem readLE_congr (m m' : Memory) (a n : Nat)
    (h : ∀ x, a ≤ x → x < a + n → m.readByte x = m'.readByte x) : m.readLE a n = m'.readLE a n := by
  induction n generalizing a with
  | zero => rfl
  | succ n ih =>
    rw [readLE, readLE, h a (by omega) (by omega), ih (a + 1) fun x h1 h2 => h x (by omega) (by omega)]

theorem readLE_lt (m : Memory) (a n : Nat) : m.readLE a n < 256 ^ n := by
  induction n generalizing a with
  | zero => simp [readLE]
  | succ n ih =>
    have h1 := ih (a + 1)
    have h2 : (m.readByte a).toNat < 256 := (m.readByte a).isLt
    rw [readLE, Nat.pow_succ]
    omega

theorem readLE_writeLE_same (m : Memory) (a n v : Nat) (h : m.Rising) :
    (m.writeLE a n v).readLE a n = v % 256 ^ n := by
  induction n generalizing m a v with
  | zero => simp [readLE, Nat.mod_one]
  | succ n ih =>
    rw [readLE, writeLE, readByte_writeLE_other _ _ _ _ _ (by omega),
      readByte_writeByte_same _ _ _ h, ih _ _ _ (rising_writeByte m a _ h)]
    rw [Nat.pow_succ, Nat.mul_comm (256 ^ n) 256, Nat.mod_mul]
    simp

theorem readLE_writeLE_other (m : Memory) (a n v a' n' : Nat) (h : a' + n' ≤ a ∨ a + n ≤ a') :
    (m.writeLE a n v).readLE a' n' = m.readLE a' n' :=
  readLE_congr _ _ _ _ fun _ h1 h2 => readByte_writeLE_other _ _ _ _ _ (by omega)

/-! ## Frames -/

theorem inFrame_iff (f : PPN) (a : Nat) :
    inFrame f a = true ↔ f.toNat * 4096 ≤ a ∧ a < f.toNat * 4096 + 4096 := by
  simp only [inFrame, Bool.and_eq_true, decide_eq_true_eq]
  rfl

theorem readByte_zeroFrame (m : Memory) (f : PPN) (a : Nat) :
    (m.zeroFrame f).readByte a = if inFrame f a then unlistedByte else m.readByte a := by
  unfold zeroFrame
  induction m with
  | nil => simp [readByte]
  | cons c rest ih =>
    by_cases hc : inFrame f c.1
    · rw [List.filter_cons_of_neg (by simp [hc]), ih, readByte]
      by_cases e : c.1 = a
      · subst e; simp [hc]
      · simp [e]
    · rw [List.filter_cons_of_pos (by simpa using hc), readByte, readByte, ih]
      by_cases e : c.1 = a
      · subst e; simp [hc]
      · simp [e]

theorem wf_zeroFrame (m : Memory) (f : PPN) (h : m.wf) : (m.zeroFrame f).wf :=
  ⟨h.1.filter _, fun c hc => h.2 c (List.mem_filter.mp hc).1⟩

theorem readLE_zeroFrame_inside (m : Memory) (f : PPN) (a n : Nat) (h1 : frameBase f ≤ a)
    (h2 : a + n ≤ frameBase f + 4096) : (m.zeroFrame f).readLE a n = 0 := by
  induction n generalizing a with
  | zero => rfl
  | succ n ih =>
    have hin : inFrame f a = true := by simp [inFrame, Config.pageSize]; omega
    rw [readLE, readByte_zeroFrame, hin, ih (a + 1) (by omega) (by omega)]
    rfl

theorem readLE_zeroFrame_outside (m : Memory) (f : PPN) (a n : Nat)
    (h : a + n ≤ frameBase f ∨ frameBase f + 4096 ≤ a) : (m.zeroFrame f).readLE a n = m.readLE a n := by
  refine readLE_congr _ _ _ _ fun x h1 h2 => ?_
  have hx : inFrame f x = false := by simp [inFrame, Config.pageSize]; omega
  simp [readByte_zeroFrame, hx]

/-! ## Slots (20_memory.md R50) -/

theorem slot_toNat (n : PPN) (i : LevelIndex) : (slot n i).toNat = frameBase n + 8 * i.toNat := by
  have hn : n.toNat < 2 ^ 44 := n.isLt
  have hi : i.toNat < 2 ^ 9 := i.isLt
  simp only [slot, frameBase, Config.pageSize, BitVec.toNat_add, BitVec.toNat_mul, BitVec.toNat_shiftLeft,
    BitVec.toNat_setWidth, Nat.shiftLeft_eq, BitVec.toNat_ofNat]
  omega

/-- Every slot lies inside its frame, and the frame inside the physical space. -/
theorem slot_bounds (n : PPN) (i : LevelIndex) :
    (slot n i).toNat + 8 ≤ frameBase n + 4096 ∧ frameBase n + 4096 ≤ Config.physBytes := by
  have hn : n.toNat < 2 ^ 44 := n.isLt
  have hi : i.toNat < 2 ^ 9 := i.isLt
  rw [slot_toNat]
  simp only [frameBase, Config.pageSize, Config.physBytes, Config.paBits]
  omega

theorem slot_inj (n n' : PPN) (i i' : LevelIndex) (h : (slot n i).toNat = (slot n' i').toNat) :
    n = n' ∧ i = i' := by
  have hi : i.toNat < 2 ^ 9 := i.isLt
  have hi' : i'.toNat < 2 ^ 9 := i'.isLt
  rw [slot_toNat, slot_toNat] at h
  simp only [frameBase, Config.pageSize] at h
  constructor <;> apply BitVec.eq_of_toNat_eq <;> omega

theorem wf_writePTE (m : Memory) (n : PPN) (i : LevelIndex) (e : PTE) (h : m.wf) :
    (m.writePTE (slot n i) e).wf := by
  have := slot_bounds n i
  exact wf_writeLE _ _ _ _ h (by omega)

/-- A PTE read returns the last PTE written to the slot. -/
theorem readPTE_writePTE_same (m : Memory) (a : PA) (e : PTE) (h : m.Rising) :
    (m.writePTE a e).readPTE a = e := by
  have he : e.toNat < 2 ^ 64 := e.isLt
  apply BitVec.eq_of_toNat_eq
  simp only [readPTE, writePTE, readLE_writeLE_same _ _ _ _ h, BitVec.toNat_ofNat]
  omega

/-- A PTE write leaves every other slot as it was. -/
theorem readPTE_writePTE_other (m : Memory) (n n' : PPN) (i i' : LevelIndex) (e : PTE)
    (h : ¬(n' = n ∧ i' = i)) : (m.writePTE (slot n i) e).readPTE (slot n' i') = m.readPTE (slot n' i') := by
  have hne : (slot n i).toNat ≠ (slot n' i').toNat := fun he => h ((slot_inj _ _ _ _ he).imp Eq.symm Eq.symm)
  unfold readPTE writePTE
  rw [readLE_writeLE_other]
  rw [slot_toNat, slot_toNat] at *
  simp only [frameBase, Config.pageSize] at *
  omega

/-- A fresh frame reads as empty entries. -/
theorem readPTE_zeroFrame_inside (m : Memory) (f : PPN) (i : LevelIndex) :
    (m.zeroFrame f).readPTE (slot f i) = 0#64 := by
  have hb := slot_bounds f i
  have ht := slot_toNat f i
  unfold readPTE
  rw [readLE_zeroFrame_inside _ _ _ _ (by omega) (by omega)]

/-- Zeroing a frame leaves the slots of every other frame as they were. -/
theorem readPTE_zeroFrame_other (m : Memory) (f n : PPN) (i : LevelIndex) (h : n ≠ f) :
    (m.zeroFrame f).readPTE (slot n i) = m.readPTE (slot n i) := by
  have hb := slot_bounds n i
  have ht := slot_toNat n i
  have hne : n.toNat ≠ f.toNat := fun e => h (BitVec.eq_of_toNat_eq e)
  unfold readPTE
  rw [readLE_zeroFrame_outside]
  simp only [frameBase, Config.pageSize] at *
  omega

end Sys2Proof.Machine.Memory
end

