-- ==== Sys2Proof/Laws/Walk.lean ====
section
/-! SUPPORT. The allocator and the walk: what they read, what they write, and what an entry reads after
a PTE write or a fresh frame (20_memory.md R50 to R61). -/

namespace Sys2Proof.Machine

/-! ## The allocator (R61) -/

/-- The frame handed out is owned by no table, and only owned frames were passed over. -/
theorem takeFrame_some {taken fs : List PPN} {f : PPN} {rest : List PPN} (h : takeFrame taken fs = some (f, rest)) :
    f ∉ taken ∧ ∃ skipped, fs = skipped ++ f :: rest ∧ ∀ x ∈ skipped, x ∈ taken := by
  induction fs with
  | nil => simp [takeFrame] at h
  | cons x xs ih =>
    simp only [takeFrame] at h
    split at h
    · rename_i hx
      obtain ⟨h1, sk, rfl, h2⟩ := ih h
      exact ⟨h1, x :: sk, rfl, by simpa using ⟨by simpa using hx, h2⟩⟩
    · rename_i hx
      obtain ⟨rfl, rfl⟩ : x = f ∧ xs = rest := by simpa using h
      exact ⟨by simpa using hx, [], rfl, by simp⟩

/-- The allocator is exhausted exactly when it offers owned frames only. -/
theorem takeFrame_none {taken fs : List PPN} : takeFrame taken fs = none ↔ ∀ x ∈ fs, x ∈ taken := by
  induction fs with
  | nil => simp [takeFrame]
  | cons x xs ih =>
    simp only [takeFrame]
    split
    · rename_i hx
      simp only [List.contains_eq_mem, decide_eq_true_eq] at hx
      simp [ih, hx]
    · rename_i hx
      simp only [List.contains_eq_mem, decide_eq_true_eq] at hx
      simp [hx]

/-! ## What a walk step reads -/

theorem enter_of_readPTE {m m' : Memory} {n : PPN} {i : LevelIndex}
    (h : m'.readPTE (slot n i) = m.readPTE (slot n i)) : enter m' n i = enter m n i := by
  simp only [enter, h]

theorem enter_writePTE_same (m : Memory) (n : PPN) (i : LevelIndex) (e : PTE) (h : m.Rising) :
    enter (m.writePTE (slot n i) e) n i = if pteIsValid e then some (ptePpn e) else none := by
  simp only [enter, Memory.readPTE_writePTE_same _ _ _ h]

theorem enter_writePTE_other (m : Memory) (n n' : PPN) (i i' : LevelIndex) (e : PTE) (h : ¬(n' = n ∧ i' = i)) :
    enter (m.writePTE (slot n i) e) n' i' = enter m n' i' :=
  enter_of_readPTE (Memory.readPTE_writePTE_other _ _ _ _ _ _ h)

theorem enter_zeroFrame_inside (m : Memory) (f : PPN) (i : LevelIndex) : enter (m.zeroFrame f) f i = none := by
  simp [enter, Memory.readPTE_zeroFrame_inside, pteIsValid]

theorem enter_zeroFrame_other (m : Memory) (f n : PPN) (i : LevelIndex) (h : n ≠ f) :
    enter (m.zeroFrame f) n i = enter m n i :=
  enter_of_readPTE (Memory.readPTE_zeroFrame_other _ _ _ _ h)

/-! ## What a creating walk step does (R53, R55) -/

/-- A creating step goes through a valid entry and changes nothing, or installs a fresh zeroed frame. -/
theorem enterCreate_some {taken : List PPN} {node n : PPN} {i : LevelIndex} {w w' : Walk}
    (h : enterCreate taken node i w = some (n, w')) :
    (enter w.mem node i = some n ∧ w' = w) ∨
    (enter w.mem node i = none ∧ n ∉ taken ++ w.added ∧ takeFrame (taken ++ w.added) w.frames = some (n, w'.frames) ∧
      w'.mem = (w.mem.zeroFrame n).writePTE (slot node i) (pteNew n 0x01#8) ∧ w'.added = w.added ++ [n]) := by
  simp only [enterCreate] at h
  split at h
  · rename_i c hc
    obtain ⟨rfl, rfl⟩ : c = n ∧ w = w' := by simpa using h
    exact .inl ⟨hc, rfl⟩
  · rename_i hn
    split at h
    · simp at h
    · rename_i f rest hf
      obtain ⟨rfl, rfl⟩ : f = n ∧ _ = w' := by simpa using h
      exact .inr ⟨hn, (takeFrame_some hf).1, hf, rfl, rfl⟩

/-- A creating step fails only when the allocator is exhausted. -/
theorem enterCreate_none {taken : List PPN} {node : PPN} {i : LevelIndex} {w : Walk} :
    enterCreate taken node i w = none ↔
      enter w.mem node i = none ∧ ∀ x ∈ w.frames, x ∈ taken ++ w.added := by
  simp only [enterCreate]
  split
  · simp_all
  · split
    · rename_i hf
      exact iff_of_true rfl ⟨‹_›, takeFrame_none.mp hf⟩
    · rename_i hf
      have := takeFrame_none (taken := taken ++ w.added) (fs := w.frames)
      rw [hf] at this
      simp only [reduceCtorEq, false_iff] at this
      simp only [reduceCtorEq, false_iff]
      exact fun h => this h.2

theorem findCreate_some {taken : List PPN} {root : PPN} {vpn : VPN} {w w' : Walk} {leaf : PA}
    (h : findCreate taken root vpn w = some (leaf, w')) :
    ∃ n1 n2 w1, enterCreate taken root (vpnIndex0 vpn) w = some (n1, w1) ∧
      enterCreate taken n1 (vpnIndex1 vpn) w1 = some (n2, w') ∧ leaf = slot n2 (vpnIndex2 vpn) := by
  simp only [findCreate] at h
  split at h
  · simp at h
  · rename_i n1 w1 h1
    split at h
    · simp at h
    · rename_i n2 w2 h2
      obtain ⟨rfl, rfl⟩ : _ = leaf ∧ w2 = w' := by simpa using h
      exact ⟨n1, n2, w1, h1, h2, rfl⟩

theorem find_some {m : Memory} {root : PPN} {vpn : VPN} {leaf : PA} (h : find m root vpn = some leaf) :
    ∃ n1 n2, enter m root (vpnIndex0 vpn) = some n1 ∧ enter m n1 (vpnIndex1 vpn) = some n2 ∧
      leaf = slot n2 (vpnIndex2 vpn) := by
  simp only [find] at h
  split at h
  · simp at h
  · rename_i n1 h1
    split at h
    · simp at h
    · rename_i n2 h2
      exact ⟨n1, n2, h1, h2, by simpa using h.symm⟩

theorem find_of_enter {m : Memory} {root n1 n2 : PPN} {vpn : VPN} (h1 : enter m root (vpnIndex0 vpn) = some n1)
    (h2 : enter m n1 (vpnIndex1 vpn) = some n2) : find m root vpn = some (slot n2 (vpnIndex2 vpn)) := by
  simp only [find, h1, h2]

/-! ## The translation of a page (R57) -/

/-- The three reads of a translation. -/
theorem translation_eq (m : Memory) (root : PPN) (vpn : VPN) :
    translation m root vpn =
      match enter m root (vpnIndex0 vpn) with
      | none => none
      | some n1 =>
        match enter m n1 (vpnIndex1 vpn) with
        | none => none
        | some n2 => some (m.readPTE (slot n2 (vpnIndex2 vpn))) := by
  unfold translation find
  cases enter m root (vpnIndex0 vpn) with
  | none => rfl
  | some n1 =>
    simp only
    cases enter m n1 (vpnIndex1 vpn) <;> rfl

theorem translation_of_enter {m : Memory} {root n1 n2 : PPN} {vpn : VPN}
    (h1 : enter m root (vpnIndex0 vpn) = some n1) (h2 : enter m n1 (vpnIndex1 vpn) = some n2) :
    translation m root vpn = some (m.readPTE (slot n2 (vpnIndex2 vpn))) := by
  rw [translation, find_of_enter h1 h2]

theorem translation_some {m : Memory} {root : PPN} {vpn : VPN} {e : PTE} (h : translation m root vpn = some e) :
    ∃ n1 n2, enter m root (vpnIndex0 vpn) = some n1 ∧ enter m n1 (vpnIndex1 vpn) = some n2 ∧
      find m root vpn = some (slot n2 (vpnIndex2 vpn)) ∧ e = m.readPTE (slot n2 (vpnIndex2 vpn)) := by
  unfold translation at h
  cases hf : find m root vpn with
  | none => rw [hf] at h; cases h
  | some leaf =>
    rw [hf] at h
    obtain ⟨n1, n2, h1, h2, rfl⟩ := find_some hf
    injection h with h
    exact ⟨n1, n2, h1, h2, rfl, h.symm⟩

end Sys2Proof.Machine
end

