-- ==== Sys2Proof/Laws/CreatingWalk.lean ====
section
/-! SUPPORT. The creating walk (20_memory.md R53, R55, R60): said once, everything it can do to memory and
to the tree of a table. -/

namespace Sys2Proof.Machine

/-! ## Bytes of slots and frames -/

theorem slot_byte_inFrame (n : PPN) (i : LevelIndex) (x) (h1 : (slot n i).toNat ≤ x) (h2 : x < (slot n i).toNat + 8) : inFrame n x = true := by
  have hb := Memory.slot_bounds n i
  have ht := Memory.slot_toNat n i
  have hi : i.toNat < 512 := i.isLt
  unfold frameBase Config.pageSize at ht
  rw [Memory.inFrame_iff]; omega

theorem slot_byte_other_frame {n f : PPN} (h : f ≠ n) (i : LevelIndex) (x) (h1 : (slot n i).toNat ≤ x) (h2 : x < (slot n i).toNat + 8) : inFrame f x = false := by
  have hb := Memory.slot_bounds n i
  have ht := Memory.slot_toNat n i
  have hne : n.toNat ≠ f.toNat := fun e => h (BitVec.eq_of_toNat_eq e.symm)
  have hi : i.toNat < 512 := i.isLt
  unfold frameBase Config.pageSize at ht
  rw [Bool.eq_false_iff]
  intro hc
  rw [Memory.inFrame_iff] at hc
  omega

/-- A slot of a frame outside `own` reads the same when bytes changed only in frames of `own`. -/
theorem readPTE_of_bytes {m m' : Memory} {own : List PPN} (hb : ∀ a, (∀ f ∈ own, inFrame f a = false) → m'.readByte a = m.readByte a)
   {n} (hn : n ∉ own) (i) : m'.readPTE (slot n i) = m.readPTE (slot n i) := by
  unfold Memory.readPTE
  congr 1
  refine Memory.readLE_congr _ _ _ _ fun x h1 h2 => hb x fun f hf => slot_byte_other_frame (fun e => hn (by rwa [← e])) i x h1 h2

/-! ## What a creating walk keeps -/

/-- What holds of memory `w.mem` and the frames `w.added` in the middle of a creating walk for the table `tb`
that started from memory `m0` with the frames `taken` owned: the enlarged table is a tree (`d` its depths);
only its own frames changed; an entry of an old node is as it was, or a missing one above the leaf level now
names an added frame; an added leaf node is empty; an added node names added nodes only. -/
structure WalkKeeps (m0 : Memory) (taken : List PPN) (tb : Table) (w : Walk) (d : PPN → Nat) : Prop where
  wf : w.mem.wf
  tree : ({tb with owned := tb.owned ++ w.added} : Table).Tree w.mem d
  fresh : ∀ f ∈ w.added, f ∉ taken
  nodup : w.added.Nodup
  bytes : ∀ a, (∀ f ∈ tb.owned ++ w.added, inFrame f a = false) → w.mem.readByte a = m0.readByte a
  keep : ∀ n ∈ tb.owned, ∀ i, w.mem.readPTE (slot n i) = m0.readPTE (slot n i) ∨
    (d n < 2 ∧ enter m0 n i = none ∧ ∃ c ∈ w.added, enter w.mem n i = some c)
  zero : ∀ n ∈ w.added, 2 ≤ d n → ∀ i, w.mem.readPTE (slot n i) = 0#64
  down : ∀ n ∈ w.added, d n < 2 → ∀ i c, enter w.mem n i = some c → c ∈ w.added

theorem pteIsValid_node (p : PPN) : pteIsValid (pteNew p 0x01#8) = true := by rw [pteIsValid_pteNew]; rfl

/-- One creating step keeps it, and enters a node one deeper. -/
theorem enterCreate_keeps {m0 taken tb w d} (hI : WalkKeeps m0 taken tb w d) (hsub : ∀ f ∈ tb.owned, f ∈ taken) {node i n w'}
   (hnode : node ∈ tb.owned ++ w.added) (hd : d node < 2) (h : enterCreate taken node i w = some (n, w')) :
   ∃ d', WalkKeeps m0 taken tb w' d' ∧ (∀ x ∈ tb.owned ++ w.added, d' x = d x) ∧ n ∈ tb.owned ++ w'.added ∧ d' n = d node + 1 ∧
     enter w'.mem node i = some n ∧ (∀ x ∈ w.added, x ∈ w'.added) := by
  rcases enterCreate_some h with ⟨he, rfl⟩ | ⟨he, hf, -, hm, ha⟩
  · obtain ⟨a, b⟩ := hI.tree.child node hnode hd i n he
    exact ⟨d, hI, fun _ _ => rfl, a, b, he, fun _ h => h⟩
  · have hfo : n ∉ tb.owned ++ w.added := by
      intro hc
      rcases List.mem_append.mp hc with hc | hc
      · exact hf (List.mem_append_left _ (hsub _ hc))
      · exact hf (List.mem_append_right _ hc)
    have hnn : node ≠ n := fun e => hfo (e ▸ hnode)
    have hwz := Memory.wf_zeroFrame _ n hI.wf
    have rd : ∀ x, x ≠ n → ∀ j, ¬(x = node ∧ j = i) → w'.mem.readPTE (slot x j) = w.mem.readPTE (slot x j) := by
      intro x hx j hj
      rw [hm, Memory.readPTE_writePTE_other _ _ _ _ _ _ hj, Memory.readPTE_zeroFrame_other _ _ _ _ hx]
    have rz : ∀ j, w'.mem.readPTE (slot n j) = 0#64 := by
      intro j
      rw [hm, Memory.readPTE_writePTE_other _ _ _ _ _ _ (fun e => hnn e.1.symm), Memory.readPTE_zeroFrame_inside]
    have en : ∀ x, x ≠ n → ∀ j, ¬(x = node ∧ j = i) → enter w'.mem x j = enter w.mem x j :=
      fun x hx j hj => enter_of_readPTE (rd x hx j hj)
    have ez : ∀ j, enter w'.mem n j = none := by intro j; unfold enter; rw [rz]; rfl
    have ei : enter w'.mem node i = some n := by
      rw [hm, enter_writePTE_same _ _ _ _ hwz.1, pteIsValid_node, ptePpn_pteNew]; rfl
    let d' : PPN → Nat := fun x => if x = n then d node + 1 else d x
    have dn : d' n = d node + 1 := by simp [d']
    have dx : ∀ x ∈ tb.owned ++ w.added, d' x = d x := by
      intro x hx; have : x ≠ n := fun e => hfo (e ▸ hx); simp [d', this]
    have own : tb.owned ++ w'.added = (tb.owned ++ w.added) ++ [n] := by rw [ha]; simp
    refine ⟨d', ?_, dx, by rw [own]; simp, dn, ei, by rw [ha]; intro x hx; simp [hx]⟩
    constructor
    · rw [hm]; exact Memory.wf_writePTE _ _ _ _ hwz
    · constructor
      · show _ ∈ tb.owned ++ w'.added
        rw [own]; exact List.mem_append_left _ hI.tree.rootOwned
      · have := hI.tree.rootDepth
        show d' tb.root = 0
        rw [dx _ hI.tree.rootOwned]; exact this
      · show ∀ x ∈ tb.owned ++ w'.added, d' x < 2 → ∀ j c, enter w'.mem x j = some c → c ∈ tb.owned ++ w'.added ∧ _
        rw [own]
        intro x hx hdx j c hc
        rcases List.mem_append.mp hx with hx | hx
        · have hxn : x ≠ n := fun e => hfo (e ▸ hx)
          by_cases hj : x = node ∧ j = i
          · obtain ⟨rfl, rfl⟩ := hj
            rw [ei] at hc; injection hc with hc; subst hc
            exact ⟨by simp, by rw [dn, dx _ hx]⟩
          · rw [en x hxn j hj] at hc
            rw [dx _ hx] at hdx ⊢
            obtain ⟨a, b⟩ := hI.tree.child x hx hdx j c hc
            exact ⟨List.mem_append_left _ a, by rw [dx _ a]; exact b⟩
        · simp at hx; subst hx; rw [ez] at hc; cases hc
      · show ∀ x ∈ tb.owned ++ w'.added, ∀ x' ∈ tb.owned ++ w'.added, d' x < 2 → d' x' < 2 → ∀ j j' c, enter w'.mem x j = some c → enter w'.mem x' j' = some c → x = x' ∧ j = j'
        rw [own]
        intro x hx x' hx' h1 h2 j j' c hc hc'
        rcases List.mem_append.mp hx with hx | hx
        swap; · simp at hx; subst hx; rw [ez] at hc; cases hc
        rcases List.mem_append.mp hx' with hx' | hx'
        swap; · simp at hx'; subst hx'; rw [ez] at hc'; cases hc'
        have hxn : x ≠ n := fun e => hfo (e ▸ hx)
        have hxn' : x' ≠ n := fun e => hfo (e ▸ hx')
        rw [dx _ hx] at h1; rw [dx _ hx'] at h2
        by_cases hj : x = node ∧ j = i <;> by_cases hj' : x' = node ∧ j' = i
        · exact ⟨hj.1.trans hj'.1.symm, hj.2.trans hj'.2.symm⟩
        · obtain ⟨rfl, rfl⟩ := hj
          rw [ei] at hc; injection hc with hc; subst hc
          rw [en x' hxn' j' hj'] at hc'
          exact absurd (hI.tree.child x' hx' h2 j' _ hc').1 hfo
        · obtain ⟨rfl, rfl⟩ := hj'
          rw [ei] at hc'; injection hc' with hc'; subst hc'
          rw [en x hxn j hj] at hc
          exact absurd (hI.tree.child x hx h1 j _ hc).1 hfo
        · rw [en x hxn j hj] at hc; rw [en x' hxn' j' hj'] at hc'
          exact hI.tree.unique x hx x' hx' h1 h2 j j' c hc hc'
    · intro f hf'; rw [ha] at hf'
      rcases List.mem_append.mp hf' with h | h
      · exact hI.fresh f h
      · simp at h; subst h; intro hc; exact hf (List.mem_append_left _ hc)
    · rw [ha, List.nodup_append]
      refine ⟨hI.nodup, by simp, ?_⟩
      intro a h1 b h2; simp at h2; subst h2; rintro rfl; exact hfo (List.mem_append_right _ h1)
    · intro a haf
      rw [own] at haf
      have h1 := haf n (by simp)
      have h2 := haf node (List.mem_append_left _ hnode)
      have h3 := hI.bytes a fun f hf => haf f (List.mem_append_left _ hf)
      rw [hm, Memory.writePTE, Memory.readByte_writeLE_other, Memory.readByte_zeroFrame, h1]
      · simpa using h3
      · by_contra hc
        have hb := Memory.slot_bounds node i
        have ht := Memory.slot_toNat node i
        simp [inFrame, Config.pageSize] at h2
        omega
    · intro x hx j
      have hx' : x ∈ tb.owned ++ w.added := List.mem_append_left _ hx
      have hxn : x ≠ n := fun e => hfo (e ▸ hx')
      by_cases hj : x = node ∧ j = i
      · obtain ⟨rfl, rfl⟩ := hj
        right
        refine ⟨by rw [dx _ hx']; exact hd, ?_, n, by rw [ha]; simp, ei⟩
        rcases hI.keep x hx j with h | h
        · rw [← enter_of_readPTE h]; exact he
        · exact h.2.1
      · rw [rd x hxn j hj, en x hxn j hj, dx _ hx']
        rcases hI.keep x hx j with h | ⟨h1, h2, c, h3, h4⟩
        · exact .inl h
        · exact .inr ⟨h1, h2, c, by rw [ha]; simp [h3], h4⟩
    · intro x hx hdx j
      rw [ha] at hx
      rcases List.mem_append.mp hx with hx | hx
      · have hx' : x ∈ tb.owned ++ w.added := List.mem_append_right _ hx
        have hxn : x ≠ n := fun e => hfo (e ▸ hx')
        rw [dx _ hx'] at hdx
        rw [rd x hxn j (by rintro ⟨rfl, rfl⟩; omega)]
        exact hI.zero x hx hdx j
      · simp at hx; subst hx; exact rz j
    · intro x hx hdx j c hc
      rw [ha] at hx ⊢
      rcases List.mem_append.mp hx with hx | hx
      · have hx' : x ∈ tb.owned ++ w.added := List.mem_append_right _ hx
        have hxn : x ≠ n := fun e => hfo (e ▸ hx')
        rw [dx _ hx'] at hdx
        by_cases hj : x = node ∧ j = i
        · obtain ⟨rfl, rfl⟩ := hj; rw [ei] at hc; injection hc with hc; subst hc; simp
        · rw [en x hxn j hj] at hc
          exact List.mem_append_left _ (hI.down x hx hdx j c hc)
      · simp at hx; subst hx; rw [ez] at hc; cases hc

/-- It holds at the start of a walk. -/
theorem walkKeeps_start {s : State} {tb : Table} {d} (hw : s.mem.wf) (ht : tb.Tree s.mem d) (taken) :
   WalkKeeps s.mem taken tb ⟨s.mem, s.frames, []⟩ d := by
  constructor
  · exact hw
  · simpa using ht
  · simp
  · simp
  · intro a _; rfl
  · intro n _ i; exact .inl rfl
  · simp
  · simp

/-- The whole creating walk: what it keeps, the path it leaves, and the leaf slot it answers (R53). -/
theorem findCreate_keeps {s : State} {tb : Table} {d} (hw : s.mem.wf) (ht : tb.Tree s.mem d) {taken} (hsub : ∀ f ∈ tb.owned, f ∈ taken) {vpn leaf w}
   (h : findCreate taken tb.root vpn ⟨s.mem, s.frames, []⟩ = some (leaf, w)) :
   ∃ d' n1 n2, WalkKeeps s.mem taken tb w d' ∧ leaf = slot n2 (vpnIndex2 vpn) ∧ n1 ∈ tb.owned ++ w.added ∧ d' n1 = 1 ∧ n2 ∈ tb.owned ++ w.added ∧ d' n2 = 2 ∧
     enter w.mem tb.root (vpnIndex0 vpn) = some n1 ∧ enter w.mem n1 (vpnIndex1 vpn) = some n2 ∧ (∀ x ∈ tb.owned, d' x = d x) := by
  obtain ⟨n1, n2, w1, h1, h2, rfl⟩ := findCreate_some h
  have hr := ht.rootDepth
  obtain ⟨d1, I1, e1, m1, dn1, en1, sub1⟩ := enterCreate_keeps (walkKeeps_start hw ht taken) hsub (by simpa using ht.rootOwned) (by omega) h1
  obtain ⟨d2, I2, e2, m2, dn2, en2, sub2⟩ := enterCreate_keeps I1 hsub m1 (by omega) h2
  have hroot : tb.root ∈ tb.owned ++ w1.added := List.mem_append_left _ ht.rootOwned
  have hn1 : n1 ∈ tb.owned ++ w.added := by
    rcases List.mem_append.mp m1 with h | h
    · exact List.mem_append_left _ h
    · exact List.mem_append_right _ (sub2 _ h)
  refine ⟨d2, n1, n2, I2, rfl, hn1, by rw [e2 _ m1]; omega, m2, by omega, ?_, en2, ?_⟩
  · rcases enterCreate_some h2 with ⟨_, rfl⟩ | ⟨he, hf, -, hm, ha⟩
    · exact en1
    · have hz : (w1.mem.zeroFrame n2).wf := Memory.wf_zeroFrame _ _ I1.wf
      have hrn : tb.root ≠ n2 := by
        rintro rfl; exact hf (List.mem_append_left _ (hsub _ ht.rootOwned))
      have hr1 : tb.root ≠ n1 := by
        rintro e; have := e1 tb.root (by simpa using ht.rootOwned); rw [e] at this hr; omega
      rw [hm, enter_writePTE_other _ _ _ _ _ _ (fun e => hr1 e.1), enter_zeroFrame_other _ _ _ _ hrn]
      exact en1
  · intro x hx
    rw [e2 x (List.mem_append_left _ hx), e1 x (by simpa using hx)]

/-! ## What the walk adds -/

/-- It adds one frame for each node missing on the path (R60). -/
theorem findCreate_added_length {s : State} {tb : Table} {d} (ht : tb.Tree s.mem d) {taken} (hsub : ∀ f ∈ tb.owned, f ∈ taken) {vpn leaf w}
   (h : findCreate taken tb.root vpn ⟨s.mem, s.frames, []⟩ = some (leaf, w)) : w.added.length = missingNodes s.mem tb.root vpn := by
  obtain ⟨n1, n2, w1, h1, h2, rfl⟩ := findCreate_some h
  unfold missingNodes
  rcases enterCreate_some h1 with ⟨he, rfl⟩ | ⟨he, hf, -, hm, ha⟩
  · simp only at he
    rw [he]
    rcases enterCreate_some h2 with ⟨he', rfl⟩ | ⟨he', hf', -, hm', ha'⟩
    · simp only at he'; simp [he']
    · simp only at he'; simp [he', ha']
  · simp only at he
    rw [he]
    rcases enterCreate_some h2 with ⟨he', rfl⟩ | ⟨he', hf', -, hm', ha'⟩
    · have : enter w.mem n1 (vpnIndex1 vpn) = none := by
        rw [hm]
        have hne : n1 ≠ tb.root := by
          rintro rfl
          exact hf (List.mem_append_left _ (hsub _ ht.rootOwned))
        rw [enter_writePTE_other _ _ _ _ _ _ (fun e => hne e.1), enter_zeroFrame_inside]
      rw [this] at he'; cases he'
    · simp [ha', ha]

/-- Every added frame was offered by the allocator (R61). -/
theorem findCreate_added_offered {taken : List PPN} {root vpn w w' leaf} (h : findCreate taken root vpn w = some (leaf, w')) (f) (hf : f ∈ w'.added) : f ∈ w.added ∨ f ∈ w.frames := by
  obtain ⟨n1, n2, w1, h1, h2, rfl⟩ := findCreate_some h
  have key : ∀ {node i n w w'}, enterCreate taken node i w = some (n, w') → (∀ f ∈ w'.added, f ∈ w.added ∨ f ∈ w.frames) ∧ (∀ f ∈ w'.frames, f ∈ w.frames) := by
    intro node i n w w' h
    rcases enterCreate_some h with ⟨he, rfl⟩ | ⟨he, hf, htk, hm, ha⟩
    · exact ⟨fun f h => .inl h, fun f h => h⟩
    · obtain ⟨_, sk, hsk, _⟩ := takeFrame_some htk
      rw [ha, hsk]
      refine ⟨?_, ?_⟩
      · intro f h; rcases List.mem_append.mp h with h | h
        · exact .inl h
        · simp at h; subst h; right; simp
      · intro f h; simp [h]
  obtain ⟨a1, b1⟩ := key h1
  obtain ⟨a2, b2⟩ := key h2
  rcases a2 f hf with h | h
  · exact a1 f h
  · exact .inr (b1 f h)

/-! ## What the walk writes in the frames that were owned before it -/

/-- Two frames share no byte. -/
theorem inFrame_other {f n : PPN} (h : f ≠ n) {a : Nat} (ha : inFrame f a = true) : inFrame n a = false := by
  have hne : n.toNat ≠ f.toNat := fun e => h (BitVec.eq_of_toNat_eq e.symm)
  rw [Memory.inFrame_iff] at ha
  rw [Bool.eq_false_iff]
  intro hc
  rw [Memory.inFrame_iff] at hc
  omega

/-- A byte of a frame is outside every slot of another. -/
theorem outside_slot_of_inFrame {f n : PPN} (h : f ≠ n) {a : Nat} (ha : inFrame f a = true) (i : LevelIndex) :
    a < (slot n i).toNat ∨ (slot n i).toNat + 8 ≤ a := by
  by_contra hc
  have := slot_byte_inFrame n i a (by omega) (by omega)
  rw [inFrame_other h ha] at this
  cases this

/-- A creating step writes in a frame `f` that was owned before it only the slot of the missing entry. -/
theorem enterCreate_old_byte {taken : List PPN} {node n f : PPN} {i w w'} (h : enterCreate taken node i w = some (n, w'))
    (hf : f ∈ taken) {a : Nat} (ha : inFrame f a = true)
    (ho : enter w.mem node i = none → a < (slot node i).toNat ∨ (slot node i).toNat + 8 ≤ a) :
    w'.mem.readByte a = w.mem.readByte a := by
  rcases enterCreate_some h with ⟨-, rfl⟩ | ⟨he, hn, -, hm, -⟩
  · rfl
  · have hne : f ≠ n := fun e => hn (List.mem_append_left _ (e ▸ hf))
    rw [hm, Memory.writePTE, Memory.readByte_writeLE_other _ _ _ _ _ (ho he), Memory.readByte_zeroFrame,
      inFrame_other hne ha]
    rfl

/-- Where a node is missing, a creating walk writes in a frame `f` that was owned before it only the slot of
the missing entry, and its leaf slot lies in no such frame. -/
theorem findCreate_old_byte {taken : List PPN} {root f : PPN} {vpn leaf w w'}
    (h : findCreate taken root vpn w = some (leaf, w')) (hroot : root ∈ taken) (hf : f ∈ taken) {a : Nat}
    (ha : inFrame f a = true) :
    (enter w.mem root (vpnIndex0 vpn) = none →
      (a < (slot root (vpnIndex0 vpn)).toNat ∨ (slot root (vpnIndex0 vpn)).toNat + 8 ≤ a) →
      w'.mem.readByte a = w.mem.readByte a ∧ (a < leaf.toNat ∨ leaf.toNat + 8 ≤ a)) ∧
    (∀ n1, enter w.mem root (vpnIndex0 vpn) = some n1 → enter w.mem n1 (vpnIndex1 vpn) = none →
      (a < (slot n1 (vpnIndex1 vpn)).toNat ∨ (slot n1 (vpnIndex1 vpn)).toNat + 8 ≤ a) →
      w'.mem.readByte a = w.mem.readByte a ∧ (a < leaf.toNat ∨ leaf.toNat + 8 ≤ a)) := by
  obtain ⟨n1, n2, w1, h1, h2, rfl⟩ := findCreate_some h
  have off : ∀ {n : PPN}, n ∉ taken → ∀ i, a < (slot n i).toNat ∨ (slot n i).toNat + 8 ≤ a :=
    fun {n} hn i => outside_slot_of_inFrame (show f ≠ n from fun e => hn (by rw [← e]; exact hf)) ha i
  constructor
  · intro he ho
    rcases enterCreate_some h1 with ⟨he', -⟩ | ⟨-, hn, -, hm, -⟩
    · rw [he] at he'; cases he'
    · have hn1 : n1 ∉ taken := fun hc => hn (List.mem_append_left _ hc)
      have hz : enter w1.mem n1 (vpnIndex1 vpn) = none := by
        rw [hm, enter_writePTE_other _ _ _ _ _ _ (fun e => hn1 (by rw [e.1]; exact hroot)), enter_zeroFrame_inside]
      rcases enterCreate_some h2 with ⟨he', -⟩ | ⟨-, hn', -, -, -⟩
      · rw [hz] at he'; cases he'
      · exact ⟨(enterCreate_old_byte h2 hf ha fun _ => off hn1 _).trans (enterCreate_old_byte h1 hf ha fun _ => ho),
          off (fun hc => hn' (List.mem_append_left _ hc)) _⟩
  · intro m1 he he1 ho
    rcases enterCreate_some h1 with ⟨he', rfl⟩ | ⟨he', -⟩
    · rw [he] at he'; injection he' with he'; subst he'
      rcases enterCreate_some h2 with ⟨he', -⟩ | ⟨-, hn', -, -, -⟩
      · rw [he1] at he'; cases he'
      · exact ⟨enterCreate_old_byte h2 hf ha fun _ => ho, off (fun hc => hn' (List.mem_append_left _ hc)) _⟩
    · rw [he] at he'; cases he'

/-- On a path with no node missing it changes nothing. -/
theorem findCreate_of_find {taken : List PPN} {root vpn w leaf} (h : find w.mem root vpn = some leaf) : findCreate taken root vpn w = some (leaf, w) := by
  obtain ⟨n1, n2, e1, e2, rfl⟩ := find_some h
  simp only [findCreate, enterCreate, e1, e2]

end Sys2Proof.Machine
end

