-- ==== Sys2Proof/Laws/PerInstr.lean ====
section
/-! SUPPORT. A family of statements over all instructions as syntax: the code an instruction is encoded
with hits one row of the opcode table and no other, and that row bears its mnemonic (30_encoding.md R80). -/

namespace Sys2Proof.Laws.OpcodeRow

open Sys2Proof

/-- The mnemonics of the rows a code hits. -/
def mnemonicsHit (op : OpCode) : List String := (opcodeTable.filter (fun row => row.hits op)).map (·.mnemonic)

/-- The rows hit by an instruction's code are one row, with the instruction's mnemonic. -/
def Statement (i : Instr) : Prop := mnemonicsHit (encode i).op = [i.mnemonic]

theorem paFromWord (w : Word) : Statement (.paFromWord w) := by
  show mnemonicsHit 0x00#5 = ["PA_FROM_WORD"]; decide
theorem ppnFromWord (w : Word) : Statement (.ppnFromWord w) := by
  show mnemonicsHit 0x01#5 = ["PPN_FROM_WORD"]; decide
theorem vaFromWord (w : Word) : Statement (.vaFromWord w) := by
  show mnemonicsHit 0x02#5 = ["VA_FROM_WORD"]; decide
theorem vpnFromWord (w : Word) : Statement (.vpnFromWord w) := by
  show mnemonicsHit 0x03#5 = ["VPN_FROM_WORD"]; decide
theorem vaToWord (v : VA) : Statement (.vaToWord v) := by
  show mnemonicsHit 0x04#5 = ["VA_TO_WORD"]; decide
theorem tokenRootPpn (t : Word) : Statement (.tokenRootPpn t) := by
  show mnemonicsHit 0x05#5 = ["TOKEN_ROOT_PPN"]; decide
theorem paPageOffset (v : PA) : Statement (.paPageOffset v) := by
  show mnemonicsHit 0x06#5 = ["PA_PAGE_OFFSET"]; decide
theorem paAligned (v : PA) : Statement (.paAligned v) := by
  show mnemonicsHit 0x07#5 = ["PA_ALIGNED"]; decide
theorem vaPageOffset (v : VA) : Statement (.vaPageOffset v) := by
  show mnemonicsHit 0x08#5 = ["VA_PAGE_OFFSET"]; decide
theorem vaAligned (v : VA) : Statement (.vaAligned v) := by
  show mnemonicsHit 0x09#5 = ["VA_ALIGNED"]; decide
theorem paFloor (v : PA) : Statement (.paFloor v) := by
  show mnemonicsHit 0x0a#5 = ["PA_FLOOR"]; decide
theorem paCeil (v : PA) : Statement (.paCeil v) := by
  show mnemonicsHit 0x0b#5 = ["PA_CEIL"]; decide
theorem paToPpn (v : PA) : Statement (.paToPpn v) := by
  show mnemonicsHit 0x0c#5 = ["PA_TO_PPN"]; decide
theorem ppnToPa (p : PPN) : Statement (.ppnToPa p) := by
  show mnemonicsHit 0x0d#5 = ["PPN_TO_PA"]; decide
theorem vaFloor (v : VA) : Statement (.vaFloor v) := by
  show mnemonicsHit 0x0e#5 = ["VA_FLOOR"]; decide
theorem vaCeil (v : VA) : Statement (.vaCeil v) := by
  show mnemonicsHit 0x0f#5 = ["VA_CEIL"]; decide
theorem vaToVpn (v : VA) : Statement (.vaToVpn v) := by
  show mnemonicsHit 0x10#5 = ["VA_TO_VPN"]; decide
theorem vpnToVa (p : VPN) : Statement (.vpnToVa p) := by
  show mnemonicsHit 0x11#5 = ["VPN_TO_VA"]; decide
theorem vpnIndex0 (p : VPN) : Statement (.vpnIndex0 p) := by
  show mnemonicsHit 0x12#5 = ["VPN_INDEX0"]; decide
theorem vpnIndex1 (p : VPN) : Statement (.vpnIndex1 p) := by
  show mnemonicsHit 0x13#5 = ["VPN_INDEX1"]; decide
theorem vpnIndex2 (p : VPN) : Statement (.vpnIndex2 p) := by
  show mnemonicsHit 0x14#5 = ["VPN_INDEX2"]; decide
theorem pteNew (p : PPN) (f : Flags) : Statement (.pteNew p f) := by
  show mnemonicsHit 0x15#5 = ["PTE_NEW"]; decide
theorem pteEmpty : Statement (.pteEmpty) := by
  show mnemonicsHit 0x16#5 = ["PTE_EMPTY"]; decide
theorem ptePpn (e : PTE) : Statement (.ptePpn e) := by
  show mnemonicsHit 0x17#5 = ["PTE_PPN"]; decide
theorem pteFlags (e : PTE) : Statement (.pteFlags e) := by
  show mnemonicsHit 0x18#5 = ["PTE_FLAGS"]; decide
theorem pteIsValid (e : PTE) : Statement (.pteIsValid e) := by
  show mnemonicsHit 0x19#5 = ["PTE_IS_VALID"]; decide
theorem reserved1101x : ∀ x, Statement (.reserved1101x x) := by unfold Statement; decide
theorem reserved111xx : ∀ x, Statement (.reserved111xx x) := by unfold Statement; decide

end Sys2Proof.Laws.OpcodeRow
end

