-- ==== Sys2Proof/Laws/Step.lean ====
section
/-! SUPPORT. Inversion lemmas: said once, what a step, a line and each host operation can do when they
answer a next state. -/

namespace Sys2Proof.Machine

/-- A step that goes on is the next line of a running host run. -/
theorem step_next {s s' : State} (h : step s = .next s') :
    s.status = .running ∧ ∃ l rest, s.program = l :: rest ∧ runLine l (s.withProgram rest) = .next s' := by
  simp only [step] at h
  split at h
  · cases h
  · cases h
  · rename_i hs
    split at h
    · cases h
    · exact ⟨hs, _, _, ‹_›, h⟩

/-- The other direction: a running run's step is its next line, on the state without that line. -/
theorem step_of_line {s : State} {l : Line} {rest : List Line} (hs : s.status = .running)
    (hp : s.program = l :: rest) : step s = runLine l (s.withProgram rest) := by
  unfold step
  split
  · rename_i h; rw [hs] at h; cases h
  · rename_i h; rw [hs] at h; cases h
  · split
    · rename_i h; rw [hp] at h; cases h
    · rename_i h; rw [hp] at h; cases h; rfl

theorem proceed_next {r : Result} {s' : State} (h : proceed r = .next s') :
    ∃ s1, r = .next s1 ∧ s' = s1.finish := by
  cases r with
  | next s1 => exact ⟨s1, rfl, by simpa [proceed] using h.symm⟩
  | fault f => cases h
  | refused f => cases h

/-- A request line always goes on: the result is bound, or the run ends in failure (R207, R239). -/
theorem stepRequest_eq (dest : ResultName) (q : Request) (s : State) :
    stepRequest dest q s =
      match eval s.config q with
      | .result y => .next ((((s.issue q).withResponse (.result y)).bind dest (.word y)).finish)
      | .fault c => .next (((s.issue q).withResponse (.fault c)).fail c) := by
  rw [stepRequest, exec_decode]
  cases h : eval s.config q <;> simp [react, h]

theorem hostMemRead_next {dest : ResultName} {base index : Operand} {s s' : State}
    (h : hostMemRead dest base index s = .next s') : ∃ v, s' = s.bind dest v := by
  simp only [hostMemRead] at h
  split at h
  · cases h
  · split at h
    · cases h
    · split at h
      · exact ⟨_, by simpa using h.symm⟩
      · cases h

theorem hostConstruct_next {s s' : State} (h : hostConstruct s = .next s') :
    ∃ f rest, takeFrame s.ownedFrames s.frames = some (f, rest) ∧
      s' = { s with mem := s.mem.zeroFrame f
                    frames := rest
                    tables := s.tables ++ [some { root := f, owned := [f], kind := .owner }] } := by
  simp only [hostConstruct] at h
  split at h
  · cases h
  · exact ⟨_, _, ‹_›, by simpa using h.symm⟩

theorem hostMap_next {t : Nat} {vpn : VPN} {ppn : PPN} {flags : Flags} {s s' : State}
    (h : hostMap t vpn ppn flags s = .next s') :
    ∃ tb leaf w, s.table? t = some tb ∧ tb.kind = .owner ∧
      findCreate s.ownedFrames tb.root vpn { mem := s.mem, frames := s.frames, added := [] } = some (leaf, w) ∧
      pteIsValid (w.mem.readPTE leaf) = false ∧
      s' = { s with mem := w.mem.writePTE leaf (pteNew ppn (withValid flags))
                    frames := w.frames
                    tables := s.tables.set t (some { tb with owned := tb.owned ++ w.added })
                    stale := s.rememberStale tb.root vpn } := by
  simp only [hostMap] at h
  split at h
  · cases h
  · rename_i tb htb
    split at h
    · cases h
    · rename_i hk
      split at h
      · cases h
      · rename_i leaf w hw
        split at h
        · cases h
        · rename_i hv
          exact ⟨tb, leaf, w, htb, hk, hw, Bool.eq_false_iff.mpr hv, by simpa using h.symm⟩

theorem hostUnmap_next {t : Nat} {vpn : VPN} {s s' : State} (h : hostUnmap t vpn s = .next s') :
    ∃ tb leaf, s.table? t = some tb ∧ tb.kind = .owner ∧ find s.mem tb.root vpn = some leaf ∧
      pteIsValid (s.mem.readPTE leaf) = true ∧
      s' = { s with mem := s.mem.writePTE leaf pteEmpty, stale := s.rememberStale tb.root vpn } := by
  simp only [hostUnmap] at h
  split at h
  · cases h
  · rename_i tb htb
    split at h
    · cases h
    · rename_i hk
      split at h
      · cases h
      · rename_i leaf hl
        split at h
        · exact ⟨tb, leaf, htb, hk, hl, ‹_›, by simpa using h.symm⟩
        · cases h

theorem hostTranslate_next {dest : ResultName} {t : Nat} {vpn : VPN} {s s' : State}
    (h : hostTranslate dest t vpn s = .next s') :
    ∃ tb, s.table? t = some tb ∧ s' = s.bind dest (entryValue (translation s.mem tb.root vpn)) := by
  simp only [hostTranslate] at h
  split at h
  · cases h
  · exact ⟨_, ‹_›, by simpa using h.symm⟩

theorem hostDestroy_next {t : Nat} {s s' : State} (h : hostDestroy t s = .next s') :
    ∃ tb, s.table? t = some tb ∧ s' = { s with tables := s.tables.set t none } := by
  simp only [hostDestroy] at h
  split at h
  · cases h
  · exact ⟨_, ‹_›, by simpa using h.symm⟩

theorem processorUse_next {dest : ResultName} {t : Nat} {vpn : VPN} {pick : Nat} {s s' : State}
    (h : processorUse dest t vpn pick s = .next s') : ∃ v, s' = s.bind dest v := by
  simp only [processorUse] at h
  split at h
  · cases h
  · exact ⟨_, by simpa using h.symm⟩

theorem processorStatus_next {t : Nat} {vpn : VPN} {accessed dirty : Bool} {s s' : State}
    (h : processorStatus t vpn accessed dirty s = .next s') :
    s' = s ∨ ∃ tb leaf, s.table? t = some tb ∧ find s.mem tb.root vpn = some leaf ∧
      pteIsValid (s.mem.readPTE leaf) = true ∧
      s' = { s with mem := s.mem.writePTE leaf (withStatusBits (s.mem.readPTE leaf) accessed dirty) } := by
  simp only [processorStatus] at h
  split at h
  · cases h
  · rename_i tb htb
    split at h
    · exact .inl (by simpa using h.symm)
    · rename_i leaf hl
      split at h
      · exact .inr ⟨tb, leaf, htb, hl, ‹_›, by simpa using h.symm⟩
      · exact .inl (by simpa using h.symm)

end Sys2Proof.Machine
end

