-- ==== Sys2Proof/Tests/Slice0.lean ====
section
/-! SUPPORT. The model's own tests: decoding, ill-formed lines, vectors of spec/95_test_vectors.md (their ids
stand in the comments), host operations, and a witness for the hypotheses of each obligation. -/

namespace Sys2Proof.Tests

open Sys2Proof Sys2Proof.Machine

/-! ## Helpers -/

/-- The next state of a step that goes on. -/
def after : Result → Option State
  | .next s => some s
  | .fault _ | .refused _ => none

theorem goes_on {r : Result} (h : (after r).isSome = true) : ∃ t, r = .next t := by
  cases r with
  | next t => exact ⟨t, rfl⟩
  | fault f => cases h
  | refused f => cases h

/-- The fault a step stops with. -/
def stopOf : Result → Option Fault
  | .fault f => some f
  | .next _ | .refused _ => none

/-- The refusal a step stops with. -/
def refusalOf : Result → Option Refusal
  | .refused r => some r
  | .next _ | .fault _ => none

/-- The response to a request run as the first instruction after reset, through step. -/
def answer (op : OpCode) (a b : Word) : Option Response :=
  (after (step (State.reset.withFetchWord requestBits ({ op := op, a := a, b := b } : Request).number))).bind (·.response)

/-- A run of lines after reset, not yet started. -/
def run (program : List Line) : State := { State.reset with program := program }

/-- The value a step bound to a name. -/
def boundBy (r : Result) (x : ResultName) : Option Value := (after r).bind (·.lookup x)

/-! ## Decoding words written out from R80: the code in bits 4:0, then a, then b -/

theorem test_decode_masking : decodeTableWord 133 (0b00100 + 2 ^ 5 * 0x789ABCDEF0) = some (.vaToWord 0x789ABCDEF0#39) := by decide
theorem test_decode_token : decodeTableWord 69 (0b00101 + 2 ^ 5 * 0x8000000000080123) =
    some (.tokenRootPpn 0x8000000000080123#64) := by decide
theorem test_decode_page : decodeTableWord 133 (0b01011 + 2 ^ 5 * 0x1001) = some (.paCeil 0x1001#56) := by decide
theorem test_decode_index : decodeTableWord 133 (0b10011 + 2 ^ 5 * 0x1234567) = some (.vpnIndex1 0x1234567#27) := by decide
theorem test_decode_pte : decodeTableWord 133 (0b10101 + 2 ^ 5 * 0x80000 + 2 ^ 69 * 0x107) =
    some (.pteNew 0x80000#44 0x07#8) := by decide
theorem test_decode_no_operand : decodeTableWord 8 0b10110 = some .pteEmpty := by decide
theorem test_decode_reserved : decodeTableWord 8 0b11011 = some (.reserved1101x 1#1) ∧
    decodeTableWord 8 0b11101 = some (.reserved111xx 1#2) := by decide
theorem test_decode_too_wide : decodeNumber (2 ^ 133) = .error .tooWide := by decide
/-- Every code, in the order of R80. -/
theorem test_decode_every_code : ((List.range 32).map fun n => (decode { op := BitVec.ofNat 5 n, a := 0, b := 0 }).mnemonic) =
    opcodeTable.map (·.mnemonic) ++ List.replicate 4 "(reserved)" := by decide
theorem test_encode_pteNew : encode (.pteNew 0x80000#44 0x07#8) = { op := 0x15#5, a := 0x80000#64, b := 0x07#64 } := by decide

/-! ## Ill-formed lines are refused, by the check and by the machine -/

theorem test_wf_unbound_operand : programWf [] 0 [.request (.r 1) 0x00#5 (.res (.r 0)) (.lit 0)] = false := by decide
theorem test_wf_bound_operand : programWf [] 0
    [.request (.r 0) 0x16#5 (.lit 0) (.lit 0), .request (.r 1) 0x19#5 (.res (.r 0)) (.lit 0)] = true := by decide
theorem test_wf_unbound_memRead : programWf [] 0 [.memRead (.r 1) (.lit 0) (.res (.t 3))] = false := by decide
theorem test_wf_no_table : programWf [] 0 [.unmap 0 0] = false ∧ programWf [] 0 [.construct, .unmap 1 0] = false ∧
    programWf [] 0 [.construct, .unmap 0 0] = true := by decide
theorem test_wf_operand_count : AsmLine.wf { dest := 0, head := .core 0x15#5, operands := [.num 1] } = false ∧
    AsmLine.wf { dest := 0, head := .core 0x16#5, operands := [.num 1] } = false ∧
    AsmLine.wf { dest := 0, head := .pseudo .canon, operands := [] } = false := by decide
theorem test_wf_literal_width : AsmLine.wf { dest := 0, head := .core 0x00#5, operands := [.num (2 ^ 64)] } = false ∧
    AsmLine.wf { dest := 0, head := .core 0x00#5, operands := [.num (2 ^ 64 - 1)] } = true := by decide
theorem test_wf_leaf_flags : AsmLine.wf { dest := 0, head := .pseudo .pteLeaf, operands := [.num 1, .name 0] } = false := by decide
theorem test_wf_reserved_code : AsmLine.wf { dest := 0, head := .core 0x1a#5, operands := [] } = false := by decide
theorem test_refused_unbound : refusalOf (step (run [.request (.r 1) 0x00#5 (.res (.r 0)) (.lit 0)])) =
    some (.unboundOperand (.r 0)) := by decide
theorem test_refused_table : refusalOf (step (run [.unmap 0 0])) = some (.noSuchTable 0) := by decide

/-! ## The assembler (R84, R85) -/

theorem test_parse_flags : parseLine "r2 = PTE_NEW r1, V|R|W|X" =
    .ok { dest := 2, head := .core 0x15#5, operands := [.name 1, .flags [.V, .R, .W, .X]] } := by decide
theorem test_parse_literal : parseLine "r1 = PA_FLOOR 0x8020_0ABC" =
    .ok { dest := 1, head := .core 0x0a#5, operands := [.num 0x80200ABC] } := by decide
theorem test_parse_no_operand : parseLine "r7 = PTE_EMPTY" = .ok { dest := 7, head := .core 0x16#5, operands := [] } := by decide
theorem test_parse_refuses : parseLine "r7 = PTE_FULL" = .error .noSuchMnemonic ∧
    parseLine "PTE_EMPTY" = .error .malformed := by decide
/-- R84: V|R|W is 0x07. P2 line 2: V|R|W|X is 0xF. -/
theorem test_assemble_flags : assembleLine { dest := 2, head := .core 0x15#5, operands := [.name 1, .flags [.V, .R, .W, .X]] } =
    .ok [.request (.r 2) 0x15#5 (.res (.r 1)) (.lit 0xF#64)] ∧ flagSet [.V, .R, .W] = 0x07#8 := by decide
theorem test_assemble_refuses :
    assembleLine { dest := 0, head := .core 0x1a#5, operands := [] } = .error .noSuchMnemonic ∧
    assembleLine { dest := 0, head := .core 0x15#5, operands := [.num 1] } = .error .operandCount ∧
    assembleLine { dest := 0, head := .core 0x00#5, operands := [.num (2 ^ 64)] } = .error .literalTooWide ∧
    assembleLine { dest := 0, head := .pseudo .pteLeaf, operands := [.num 1, .name 0] } = .error .flagsNotLiteral := by decide

/-- A build with `CEIL_ZERO_FAULTS` true. -/
def zeroFaults : Config := { ceilZeroFaults := true }

/-! ## Vectors of 95_test_vectors.md, each a first step after reset -/

theorem test_v4_paFromWord : answer 0x00#5 0xFFFFFFFFFFFFFFFF#64 0 = some (.result 0xFFFFFFFFFFFFFF#64) := by decide
theorem test_v9_ppnFromWord : answer 0x01#5 0x8000000000080000#64 0 = some (.result 0x80000#64) := by decide
theorem test_v15_vaFromWord : answer 0x02#5 0x123456789ABCDEF0#64 0 = some (.result 0x789ABCDEF0#64) := by decide
theorem test_v18_vpnFromWord : answer 0x03#5 0xFFFFFFFFFFFFFFFF#64 0 = some (.result 0x7FFFFFF#64) := by decide
theorem test_v25_vaToWord : answer 0x04#5 0x789ABCDEF0#64 0 = some (.result 0xFFFFFFF89ABCDEF0#64) := by decide
theorem test_v26_vaToWord : answer 0x04#5 0xFFFFFF8000000001#64 0 = some (.result 0x1#64) := by decide
theorem test_v29_tokenRootPpn : answer 0x05#5 0x800123456789ABCD#64 0 = some (.result 0x3456789ABCD#64) := by decide
theorem test_v35_paPageOffset : answer 0x06#5 0xFF00000000000123#64 0 = some (.result 0x123#64) := by decide
theorem test_v37_paAligned : answer 0x07#5 0xFFF#64 0 = some (.result 0#64) := by decide
theorem test_v40_vaPageOffset : answer 0x08#5 0xFFFFFFC000000123#64 0 = some (.result 0x123#64) := by decide
theorem test_v42_vaAligned : answer 0x09#5 0x10000000#64 0 = some (.result 1#64) := by decide
theorem test_v48_paFloor : answer 0x0a#5 0x80200ABC#64 0 = some (.result 0x80200#64) := by decide
theorem test_v53_v122_paCeil : answer 0x0b#5 0x1001#64 0 = some (.result 2#64) ∧ answer 0x0b#5 0 0 = some (.result 0#64) := by decide
theorem test_v56_v126_paCeil : answer 0x0b#5 0xFFFFFFFFFFF001#64 0 = some (.fault .ceilOverflow) ∧
    eval zeroFaults { op := 0x0b#5, a := 0x100000000000000#64, b := 0 } = .fault .ceilZero := by decide
theorem test_v60_paToPpn : answer 0x0c#5 0x80000001#64 0 = some (.fault .misaligned) := by decide
theorem test_v63_paToPpn : answer 0x0c#5 0xFF00000080000000#64 0 = some (.result 0x80000#64) := by decide
theorem test_v67_ppnToPa : answer 0x0d#5 0x100000000001#64 0 = some (.result 0x1000#64) := by decide
theorem test_v70_vaFloor : answer 0x0e#5 0xFFFFFFC000000000#64 0 = some (.result 0x4000000#64) := by decide
theorem test_v73_vaCeil : answer 0x0f#5 0x7FFFFFF000#64 0 = some (.result 0x7FFFFFF#64) := by decide
theorem test_v74_v125_vaCeil : answer 0x0f#5 0x7FFFFFF001#64 0 = some (.fault .ceilOverflow) ∧
    eval zeroFaults { op := 0x0f#5, a := 0, b := 0 } = .fault .ceilZero := by decide
theorem test_v77_vaToVpn : answer 0x10#5 0x10000800#64 0 = some (.fault .misaligned) := by decide
theorem test_v78_vaToVpn : answer 0x10#5 0xFFFFFFC000000000#64 0 = some (.result 0x4000000#64) := by decide
theorem test_v82_vpnToVa : answer 0x11#5 0x4000000#64 0 = some (.result 0x4000000000#64) := by decide
theorem test_v83_vpnIndex0 : answer 0x12#5 0x1234567#64 0 = some (.result 0x48#64) := by decide
theorem test_v84_vpnIndex1 : answer 0x13#5 0x1234567#64 0 = some (.result 0x1A2#64) := by decide
theorem test_v85_vpnIndex2 : answer 0x14#5 0x1234567#64 0 = some (.result 0x167#64) := by decide
theorem test_v101_pteNew : answer 0x15#5 0x80201#64 0x1F#64 = some (.result 0x2008041F#64) := by decide
theorem test_v102_pteNew : answer 0x15#5 0xFFFFF00000000001#64 0xFFFFFFFFFFFFFF01#64 = some (.result 0x401#64) := by decide
theorem test_v104_pteEmpty : answer 0x16#5 0xFFFFFFFFFFFFFFFF#64 0xFFFFFFFFFFFFFFFF#64 = some (.result 0#64) := by decide
theorem test_v105_ptePpn : answer 0x17#5 0x20000007#64 0 = some (.result 0x80000#64) := by decide
theorem test_v107_ptePpn : answer 0x17#5 0x40000000000000#64 0 = some (.result 0#64) := by decide
theorem test_v111_pteFlags : answer 0x18#5 0x300#64 0 = some (.result 0#64) := by decide
theorem test_v115_pteIsValid : answer 0x19#5 0x20000006#64 0 = some (.result 0#64) := by decide
theorem test_v118_pteIsValid : answer 0x19#5 0x1#64 0 = some (.result 1#64) := by decide
theorem test_v119_reserved1101x : answer 0x1a#5 0 0 = some (.fault .illegalOp) := by decide
theorem test_v120_reserved111xx : answer 0x1f#5 0xFFFFFFFFFFFFFFFF#64 0xFFFFFFFFFFFFFFFF#64 = some (.fault .illegalOp) := by decide

/-! ## The parameters of R6 agree with each other (91_not_in_source.md N1) -/

theorem test_parameters : Config.paBits - Config.pageBits = Config.ppnBits ∧ Config.vaBits - Config.pageBits = Config.vpnBits ∧
    Config.levels * Config.idxBits = Config.vpnBits ∧ 2 ^ Config.idxBits = Config.entries ∧
    Config.entries * Config.pteBytes = Config.pageSize ∧ Config.ptePpnHi - Config.ptePpnLo + 1 = Config.ppnBits ∧
    Config.tokenPpnBits = Config.ppnBits ∧ 2 ^ Config.pageBits = Config.pageSize := by decide

/-! ## How a run goes and ends (P3, R239) -/

/-- P3 line 4 as a first line, with line 5 after it. -/
def p3tail : State := run [.request (.r 4) 0x0c#5 (.lit 0x80200ABC) (.lit 0), .request (.r 5) 0x0d#5 (.lit 0x80200) (.lit 0)]
theorem test_p3_fails : (after (step p3tail)).map (·.status) = some (.failed .misaligned) ∧
    (after (step p3tail)).map (·.bindings) = some [] := by decide
theorem test_halted_run_issues_nothing : stopOf (step { p3tail with status := .failed .misaligned }) =
    some (.halted .misaligned) := by decide
theorem test_reset_has_no_request : stopOf (step State.reset) = some .noRequest := by decide
theorem test_last_line_succeeds : (after (step (run [.request (.r 7) 0x16#5 (.lit 0) (.lit 0)]))).map (·.status) =
    some .succeeded := by decide

/-! ## The scenario L1.9 and the halts of L1.7, step by step -/

/-- The state before L1.9 step 1: the allocator draws 0x80400, 0x80401, 0x80402. -/
def fresh (program : List Line) : State := { run program with frames := [0x80400#44, 0x80401#44, 0x80402#44] }

/-- After step 1. -/
def constructed (program : List Line) : State :=
  { run program with
    frames := [0x80401#44, 0x80402#44]
    tables := [some { root := 0x80400#44, owned := [0x80400#44], kind := .owner }] }

/-- The bytes of the two intermediate entries, as L1.9 prints them. -/
def nodeBytes : Memory :=
  [(0x80400000, 0x01#8), (0x80400001, 0x04#8), (0x80400002, 0x10#8), (0x80400003, 0x20#8),
   (0x80401400, 0x01#8), (0x80401401, 0x08#8), (0x80401402, 0x10#8), (0x80401403, 0x20#8)]

/-- The three frames, owned. -/
def threeFrames : Table := { root := 0x80400#44, owned := [0x80400#44, 0x80401#44, 0x80402#44], kind := .owner }

/-- The bytes of the three nodes after step 5. -/
def leafBytes : Memory := nodeBytes ++ [(0x80402000, 0x07#8), (0x80402003, 0x20#8)]

/-- After step 5. -/
def mapped (program : List Line) : State :=
  { run program with
    mem := leafBytes
    tables := [some threeFrames] }

/-- After step 7. -/
def unmapped (program : List Line) : State := { run program with mem := nodeBytes, tables := [some threeFrames] }

theorem test_l19_construct : (after (step (fresh [.construct]))).map (·.tables) = some (constructed []).tables ∧
    (after (step (fresh [.construct]))).map (·.mem) = some [] := by decide
theorem test_l19_map : (after (step (constructed [.map 0 0x10000#27 0x80000#44 0x06#8]))).map (·.mem) = some (mapped []).mem := by decide
theorem test_l19_map_owns : (after (step (constructed [.map 0 0x10000#27 0x80000#44 0x06#8]))).map (·.tables) =
    some [some threeFrames] := by decide
theorem test_l19_translate : boundBy (step (mapped [.translate (.r 0) 0 0x10000#27])) (.r 0) = some (.word 0x20000007#64) := by decide
theorem test_l19_unmap : (after (step (mapped [.unmap 0 0x10000#27]))).map (·.mem) = some nodeBytes := by decide
theorem test_l19_translate_unmapped : boundBy (step (unmapped [.translate (.r 0) 0 0x10000#27])) (.r 0) = some (.word 0#64) := by decide
/-- The state before P4 line 8, whose base and index are the results r6 and r5. -/
def beforeP4Line8 : State :=
  { mapped [.memRead (.r 20) (.res (.r 6)) (.res (.r 5))] with
    bindings := [(.r 6, .word 0x80401000#64), (.r 5, .word 0x80#64)] }

/-- P4 line 8: the host reads 0x80401400. -/
theorem test_p4_memRead : boundBy (step (mapped [.memRead (.r 1) (.lit 0x80401000) (.lit 0x80)])) (.r 1) =
    some (.word 0x20100801#64) := by decide
theorem test_translate_absent : boundBy (step (constructed [.translate (.r 0) 0 0x10000#27])) (.r 0) = some .absent := by decide
theorem test_l17_double_map : stopOf (step (mapped [.map 0 0x10000#27 0x80001#44 0x06#8])) = some (.hostHalt .mapOfValidLeaf) := by decide
theorem test_l17_unmap_absent : stopOf (step (constructed [.unmap 0 0x10000#27])) = some (.hostHalt .unmapThroughMissingNode) := by decide
theorem test_l17_unmap_twice : stopOf (step (unmapped [.unmap 0 0x10000#27])) = some (.hostHalt .unmapOfInvalidLeaf) := by decide
theorem test_exhausted : stopOf (step (run [.construct])) = some (.hostHalt .allocatorExhausted) := by decide
/-- L1.8, second row: a page on the same path needs no frame. -/
theorem test_l18_same_path : (after (step (mapped [.map 0 0x10001#27 0x80001#44 0x06#8]))).map (·.tables) = some [some threeFrames] := by decide
/-- L1.8, third row: a new step-1 slot needs one frame, and one is enough. -/
theorem test_l18_new_step1_slot : (after (step { mapped [.map 0 0x10200#27 0x80002#44 0x06#8] with frames := [0x80403#44] })).map
    (·.ownedFrames.length) = some 4 := by decide
/-- R208: the second node of a path finds no frame. -/
theorem test_exhausted_in_walk : stopOf (step { constructed [.map 0 0x10000#27 0x80000#44 0x06#8] with frames := [0x80401#44] }) =
    some (.hostHalt .allocatorExhausted) := by decide
theorem test_view_token : (after (step (run [.fromRootToken 0x8000000000080123#64]))).map (·.tables) =
    some [some { root := 0x80123#44, owned := [], kind := .view }] := by decide
/-- R47: after the unmap the old entry is still admitted, as choice 1. -/
theorem test_stale_use : boundBy (step { unmapped [.processorUse (.r 0) 0 0x10000#27 1] with
    stale := [{ root := 0x80400#44, vpn := 0x10000#27, old := some 0x20000007#64 }] }) (.r 0) = some (.word 0x20000007#64) := by decide
/-- R236: A and D written into the leaf 0x20000007 give 0x200000C7. -/
theorem test_status_write : ((after (step (mapped [.processorStatus 0 0x10000#27 true true]))).map
    fun t => t.mem.readPTE (slot 0x80402#44 0)) = some 0x200000C7#64 := by decide
theorem test_destroy : (after (step (mapped [.destroy 0]))).map (·.ownedFrames) = some [] := by decide

/-! ## Witnesses: states and operands that meet the hypotheses of each obligation

One theorem for each obligation that has hypotheses; one conjunct for each clause, at a boundary of its range. -/

theorem witness_UnreadBusBitsNeverMatter :
    ∃ q q' : Request, q ≠ q' ∧ q.op = q'.op ∧ q.a &&& readMaskA q.op = q'.a &&& readMaskA q.op ∧
      q.b &&& readMaskB q.op = q'.b &&& readMaskB q.op :=
  ⟨{ op := 0x15#5, a := 0xFFFFF00000000001#64, b := 0x101#64 }, { op := 0x15#5, a := 1#64, b := 1#64 }, by decide⟩

theorem witness_AnswerDependsOnRequestAndBuildAlone :
    ∃ s s' : State, s ≠ s' ∧ s.config = s'.config := ⟨State.reset, mapped [], by decide⟩

theorem witness_ReservedCodesAnswerIllegalOp : 0x1a#5 ≤ 0x1a#5 ∧ 0x1a#5 ≤ 0x1f#5 := by decide

theorem witness_WideningIsCanonical : (0x4000000000#39 : VA).getLsbD 38 = true ∧ (0x3FFFFFFFFF#39 : VA).getLsbD 38 = false := by decide

theorem witness_NarrowingIsIdempotent : 0x03#5 ∈ [0x00#5, 0x01#5, 0x02#5, 0x03#5] := by decide

theorem witness_PhysicalPageRoundTrip : (0xFFFFFFFFFFF000#56 : PA).toNat % 4096 = 0 := by decide

theorem witness_VirtualPageRoundTrip : (0x7FFFFFF000#39 : VA).toNat % 4096 = 0 := by decide

/-- The largest addresses whose ceil does not fault, and an address with a remainder. -/
theorem witness_FloorAndCeilRelations :
    (0xFFFFFFFFFFF000#56 : PA) ≠ 0#56 ∧ Gives State.reset 0x0b#5 ((0xFFFFFFFFFFF000#56 : PA).setWidth 64) 0#64 0xFFFFFFFFFFF#64 ∧
    (0x7FFFFFF000#39 : VA) ≠ 0#39 ∧ Gives State.reset 0x0f#5 ((0x7FFFFFF000#39 : VA).setWidth 64) 0#64 0x7FFFFFF#64 ∧
    Gives State.reset 0x0b#5 ((0x1001#56 : PA).setWidth 64) 0#64 2#64 ∧
    (0xFFFFFFFFFFF000#56 : PA).toNat % 4096 = 0 ∧ (0x7FFFFFF000#39 : VA).toNat % 4096 = 0 := by
  refine ⟨by decide, ?_, by decide, ?_, ?_, by decide, by decide⟩ <;> rfl

theorem witness_PteNewIsInjective :
    Gives State.reset 0x15#5 ((0x80000#44 : PPN).setWidth 64) ((0x07#8 : Flags).setWidth 64) 0x20000007#64 := rfl

theorem witness_StepRunsTheDecodedRequest :
    (∃ (s : State) (d : ResultName) (op : OpCode) (oa ob : Operand) (a b : Word) (rest : List Line),
      s.status = .running ∧ s.program = .request d op oa ob :: rest ∧ s.operand oa = .ok a ∧ s.operand ob = .ok b) ∧
    decodeTableWord 133 (0b10110 + 2 ^ 5) = some .pteEmpty :=
  ⟨⟨{ run [.request (.r 1) 0x19#5 (.res (.r 0)) (.lit 0)] with bindings := [(.r 0, .word 1)] }, .r 1, 0x19#5, .res (.r 0),
    .lit 0, 1, 0, [], rfl, rfl, rfl, rfl⟩, by decide⟩

theorem witness_AnsweredRequestsBindTheirResult :
    ((run [.request (.r 0) 0x16#5 (.lit 0) (.lit 0)]).status = .running ∧
      Gives (run [.request (.r 0) 0x16#5 (.lit 0) (.lit 0)]) 0x16#5 0 0 0) ∧
    ∃ s : State, s.status = .running ∧ s.program = [.request (.r 6) 0x0d#5 (.res (.r 4)) (.lit 0)] ∧
      s.operand (.res (.r 4)) = .ok 0x80401#64 ∧ Gives s 0x0d#5 0x80401 0 0x80401000 :=
  ⟨⟨rfl, rfl⟩, { run [.request (.r 6) 0x0d#5 (.res (.r 4)) (.lit 0)] with bindings := [(.r 4, .word 0x80401#64)] },
    rfl, rfl, rfl, rfl⟩

theorem witness_FaultedResponsesEndTheRun :
    (p3tail.status = .running ∧ Faults p3tail 0x0c#5 0x80200ABC 0 .misaligned) ∧
    ∃ s : State, s.status = .running ∧ s.program = [.request (.r 4) 0x0c#5 (.res (.r 1)) (.lit 0)] ∧
      s.operand (.res (.r 1)) = .ok 0x80200ABC#64 ∧ Faults s 0x0c#5 0x80200ABC 0 .misaligned :=
  ⟨⟨rfl, rfl⟩, { run [.request (.r 4) 0x0c#5 (.res (.r 1)) (.lit 0)] with bindings := [(.r 1, .word 0x80200ABC#64)] },
    rfl, rfl, rfl, rfl⟩

theorem witness_EndedRunsStayEnded : ∃ t, step (run [.request (.r 0) 0x16#5 (.lit 0) (.lit 0)]) = .next t ∧ t.Succeeded :=
  ⟨_, rfl, rfl⟩

theorem witness_StepKeepsTheBuild : ∃ t, step { run [.invalidate] with config := zeroFaults } = .next t := ⟨_, rfl⟩

theorem witness_FirstRequestAfterResetIsAnsweredAsAnyOther : (mapped []).config = State.reset.config := rfl

theorem witness_PseudoInstructionsExpandAsListed : (AsmOperand.num (2 ^ 64 - 1)).wf = true ∧ (AsmOperand.flags [.R, .W]).wf = true ∧
    foldOperand (.flags [.R, .W]) = .lit 0x06#64 := by decide

theorem witness_PteReadsReturnTheLastWrite : Memory.wf (mapped []).mem := by decide

/-- The last slot of the physical space, its last byte, and the bytes just outside. -/
theorem witness_PtesAreLittleEndian : Memory.wf (mapped []).mem ∧ (0xFFFFFFFFFFFFF8#56 : PA).toNat + 8 ≤ Config.physBytes ∧ 7 < 8 ∧
    (0xFFFFFFFFFFFFF7 < (0xFFFFFFFFFFFFF8#56 : PA).toNat ∨ (0xFFFFFFFFFFFFF8#56 : PA).toNat + 8 ≤ 0xFFFFFFFFFFFFF7) := by decide

/-- The last eight bytes of the physical space are read; one byte on, the read stops. And the form of P4, with
names for base and index. -/
theorem witness_MemReadBindsTheWordAtItsAddress :
    (beforeP4Line8.status = .running ∧ beforeP4Line8.operand (.res (.r 6)) = .ok 0x80401000#64 ∧
      beforeP4Line8.operand (.res (.r 5)) = .ok 0x80#64 ∧
      boundBy (step beforeP4Line8) (.r 20) = some (.word 0x20100801#64)) ∧
    (run [.memRead (.r 0) (.lit 0xFFFFFFFFFFFFF8#64) (.lit 0#64)]).status = .running ∧
    (0xFFFFFFFFFFFFF8#64).toNat + 8 * (0#64).toNat + 8 ≤ 2 ^ 56 ∧ 2 ^ 56 < (0xFFFFFFFFFFFFF9#64).toNat + 8 * (0#64).toNat + 8 := by decide

/-! ### Sound states -/

/-- A tree of three nodes, one entry in each intermediate node. -/
theorem chain_tree (m : Memory) (tb : Table) (n1 n2 : PPN) (i0 i1 : LevelIndex) (ho : tb.owned = [tb.root, n1, n2])
    (h01 : tb.root ≠ n1) (h02 : tb.root ≠ n2) (h12 : n1 ≠ n2)
    (hr : ∀ i, enter m tb.root i = if i = i0 then some n1 else none)
    (hn : ∀ i, enter m n1 i = if i = i1 then some n2 else none) :
    tb.Tree m (fun p => if p = tb.root then 0 else if p = n1 then 1 else 2) := by
  have d1 : (if n1 = tb.root then 0 else if n1 = n1 then 1 else 2) = 1 := by simp [h01.symm]
  have d2 : (if n2 = tb.root then 0 else if n2 = n1 then 1 else 2) = 2 := by simp [h02.symm, h12.symm]
  refine ⟨by simp [ho], by simp, ?_, ?_⟩
  · intro n hno hd i c hc
    rw [ho] at hno ⊢
    rcases List.mem_cons.mp hno with rfl | hno
    · rw [hr] at hc
      split at hc
      · injection hc with hc; subst hc; simp [h01.symm]
      · cases hc
    · rcases List.mem_cons.mp hno with rfl | hno
      · rw [hn] at hc
        split at hc
        · injection hc with hc; subst hc; simp [h01.symm, h02.symm, h12.symm]
        · cases hc
      · obtain rfl : n = n2 := by simpa using hno
        rw [d2] at hd; omega
  · intro n hno n' hno' hd hd' i i' c hc hc'
    have key : ∀ n ∈ tb.owned, (if n = tb.root then 0 else if n = n1 then 1 else 2) < 2 → ∀ i c, enter m n i = some c →
        (n = tb.root ∧ i = i0 ∧ c = n1) ∨ (n = n1 ∧ i = i1 ∧ c = n2) := by
      intro n hno hd i c hc
      rw [ho] at hno
      rcases List.mem_cons.mp hno with rfl | hno
      · rw [hr] at hc
        split at hc
        · injection hc with hc; exact .inl ⟨rfl, ‹_›, hc.symm⟩
        · cases hc
      · rcases List.mem_cons.mp hno with rfl | hno
        · rw [hn] at hc
          split at hc
          · injection hc with hc; exact .inr ⟨rfl, ‹_›, hc.symm⟩
          · cases hc
        · obtain rfl : n = n2 := by simpa using hno
          rw [d2] at hd; omega
    rcases key n hno hd i c hc with ⟨rfl, rfl, h⟩ | ⟨rfl, rfl, h⟩ <;>
      rcases key n' hno' hd' i' c hc' with ⟨rfl, rfl, h'⟩ | ⟨rfl, rfl, h'⟩
    · exact ⟨rfl, rfl⟩
    · exact absurd (h.symm.trans h') h12
    · exact absurd (h'.symm.trans h) h12
    · exact ⟨rfl, rfl⟩

/-- Every entry of a node is missing where all its slots read 0. -/
theorem enter_of_zero {m : Memory} {n : PPN} {i : LevelIndex} (h : m.readPTE (slot n i) = 0#64) : enter m n i = none := by
  rw [enter, h]; rfl

theorem readPTE_nil (n : PPN) (i : LevelIndex) : Memory.readPTE [] (slot n i) = 0#64 := by
  have h : ∀ k a, Memory.readLE [] a k = 0 := by
    intro k
    induction k with
    | zero => intro a; rfl
    | succ k ih => intro a; simp [Memory.readLE, ih, Memory.readByte, unlistedByte]
  rw [Memory.readPTE, h]

/-- The memory of the two nodes, as two PTE writes. -/
theorem nodeBytes_eq : nodeBytes = (Memory.writePTE [] (slot 0x80400#44 0) 0x20100401#64).writePTE (slot 0x80401#44 0x80) 0x20100801#64 := by
  decide

/-- The same with the leaf. -/
theorem leafBytes_eq : leafBytes = Memory.writePTE nodeBytes (slot 0x80402#44 0) 0x20000007#64 := by decide

theorem nodeBytes_root (i : LevelIndex) : enter nodeBytes 0x80400#44 i = if i = 0 then some 0x80401#44 else none := by
  rw [nodeBytes_eq, enter_writePTE_other _ _ _ _ _ _ (by rintro ⟨h, _⟩; revert h; decide)]
  by_cases h : i = 0
  · subst h; rw [enter_writePTE_same _ _ _ _ (by decide)]; decide
  · rw [enter_writePTE_other _ _ _ _ _ _ (fun e => h e.2), if_neg h]; exact enter_of_zero (readPTE_nil _ _)

theorem nodeBytes_node (i : LevelIndex) : enter nodeBytes 0x80401#44 i = if i = 0x80 then some 0x80402#44 else none := by
  rw [nodeBytes_eq]
  by_cases h : i = 0x80
  · subst h; rw [enter_writePTE_same _ _ _ _ (by decide)]; decide
  · rw [enter_writePTE_other _ _ _ _ _ _ (fun e => h e.2), if_neg h,
      enter_writePTE_other _ _ _ _ _ _ (by rintro ⟨h, _⟩; revert h; decide)]
    exact enter_of_zero (readPTE_nil _ _)

theorem threeFrames_tree : ∃ d, threeFrames.Tree nodeBytes d :=
  ⟨_, chain_tree _ _ 0x80401#44 0x80402#44 0 0x80 rfl (by decide) (by decide) (by decide) nodeBytes_root nodeBytes_node⟩

theorem threeFrames_tree_mapped : ∃ d, threeFrames.Tree leafBytes d := by
  rw [leafBytes_eq]
  have other : ∀ n i, n ≠ 0x80402#44 →
      enter (Memory.writePTE nodeBytes (slot 0x80402#44 0) 0x20000007#64) n i = enter nodeBytes n i :=
    fun n i h => enter_writePTE_other _ _ _ _ _ _ fun e => h e.1
  exact ⟨_, chain_tree _ _ 0x80401#44 0x80402#44 0 0x80 rfl (by decide) (by decide) (by decide)
    (fun i => (other _ i (by decide)).trans (nodeBytes_root i)) (fun i => (other _ i (by decide)).trans (nodeBytes_node i))⟩

/-- A state with one table is sound where that table is. -/
theorem sound_one {s : State} {tb : Table} (hm : s.mem.wf) (ht : s.tables = [some tb]) (htb : tb.Sound s.mem)
    (hn : tb.owned.Nodup) : s.Sound := by
  refine ⟨hm, ?_, by simpa [State.ownedFrames, ht, ownedOf] using hn⟩
  intro k t h
  rw [State.table?, ht] at h
  rcases k with - | k
  · obtain rfl : tb = t := by simpa using h
    exact htb
  · simp at h

theorem mapped_sound (p : List Line) : (mapped p).Sound :=
  sound_one (by show Memory.wf leafBytes; decide) rfl threeFrames_tree_mapped (by decide)

theorem unmapped_sound (p : List Line) : (unmapped p).Sound :=
  sound_one (by show Memory.wf nodeBytes; decide) rfl threeFrames_tree (by decide)

theorem constructed_sound (p : List Line) : (constructed p).Sound := by
  refine sound_one (by show Memory.wf []; decide) rfl ⟨fun _ => 0, by simp, rfl, ?_, ?_⟩ (by decide)
  · intro n _ _ i c hc; rw [show (constructed p).mem = [] from rfl, enter_of_zero (readPTE_nil _ _)] at hc; cases hc
  · intro n _ n' _ _ _ i i' c hc; rw [show (constructed p).mem = [] from rfl, enter_of_zero (readPTE_nil _ _)] at hc; cases hc

/-- Two tables: the three frames of L1.9 and an empty table. -/
def twoTables (program : List Line) : State :=
  { run program with
    mem := nodeBytes
    tables := [some threeFrames, some { root := 0x90000#44, owned := [0x90000#44], kind := .owner }] }

theorem twoTables_sound (p : List Line) : (twoTables p).Sound := by
  refine ⟨by show Memory.wf nodeBytes; decide, ?_, by show (twoTables []).ownedFrames.Nodup; decide⟩
  intro k t h
  match k with
  | 0 => obtain rfl : threeFrames = t := by simpa [twoTables, State.table?] using h
         exact threeFrames_tree
  | 1 => obtain rfl : { root := 0x90000#44, owned := [0x90000#44], kind := .owner } = t := by
           simpa [twoTables, State.table?] using h
         have none : ∀ i, enter nodeBytes 0x90000#44 i = none := by
           intro i
           rw [nodeBytes_eq, enter_writePTE_other _ _ _ _ _ _ (by rintro ⟨h, _⟩; revert h; decide),
             enter_writePTE_other _ _ _ _ _ _ (by rintro ⟨h, _⟩; revert h; decide)]
           exact enter_of_zero (readPTE_nil _ _)
         refine ⟨fun _ => 0, by simp, rfl, ?_, ?_⟩
         · intro n hn _ i c hc
           obtain rfl : n = 0x90000#44 := by simpa using hn
           rw [show (twoTables p).mem = nodeBytes from rfl, none] at hc; cases hc
         · intro n hn _ _ _ _ i _ c hc
           obtain rfl : n = 0x90000#44 := by simpa using hn
           rw [show (twoTables p).mem = nodeBytes from rfl, none] at hc; cases hc
  | _ + 2 => simp [twoTables, State.table?] at h

/-! ### Witnesses over sound states -/

theorem witness_StepKeepsTheContextSound : (mapped [.unmap 0 0x10000#27]).Sound ∧
    ∃ t, step (mapped [.unmap 0 0x10000#27]) = .next t := ⟨mapped_sound _, goes_on (by decide)⟩

theorem witness_SoundTablesOwnTheirNodes : (mapped []).Sound ∧ (mapped []).table? 0 = some threeFrames ∧
    enter (mapped []).mem 0x80400#44 0 = some 0x80401#44 := ⟨mapped_sound _, rfl, by decide⟩

theorem witness_ConstructMakesAnEmptyTable :
    (∀ f ∈ (run [.construct]).frames, f ∈ (run [.construct]).ownedFrames) ∧
    (∃ f ∈ (fresh [.construct]).frames, f ∉ (fresh [.construct]).ownedFrames) ∧
    (run [.construct]).status = .running ∧ (fresh [.construct]).status = .running :=
  ⟨fun _ h => (by cases h), ⟨0x80400#44, by decide, by decide⟩, rfl, rfl⟩

theorem witness_ViewsOwnNothingAndOnlyRead : (run [.fromRootToken 0x80123#64]).status = .running ∧
    ∃ (s : State) (tb : Table), s.table? 0 = some tb ∧ tb.kind = .view :=
  ⟨rfl, { run [] with tables := [some { root := 0x80123#44, owned := [], kind := .view }] }, _, rfl, rfl⟩

/-- A map that creates both nodes. -/
theorem witness_MapThenTranslateGivesTheLeaf : (constructed [.map 0 0x10000#27 0x80000#44 0x06#8]).Sound ∧
    ∃ t, step (constructed [.map 0 0x10000#27 0x80000#44 0x06#8]) = .next t := ⟨constructed_sound _, goes_on (by decide)⟩

/-- One table after L1.9 step 7, with one more frame offered. -/
def oneFrame (program : List Line) : State := { unmapped program with frames := [0x80403#44] }

theorem oneFrame_sound (p : List Line) : (oneFrame p).Sound :=
  sound_one (by show Memory.wf nodeBytes; decide) rfl threeFrames_tree (by decide)

theorem not_two_of_one {f : PPN} {P : PPN → Prop} (h : ∀ x, P x → x = f) : ¬ ∃ new : List PPN, new.Nodup ∧ new.length = 2 ∧ ∀ x ∈ new, P x := by
  rintro ⟨new, hnd, hlen, hin⟩
  match new, hlen, hnd, hin with
  | [a, b], _, hnd, hin =>
    obtain rfl := h a (hin a (by simp))
    obtain rfl := h b (hin b (by simp))
    simp at hnd

/-- A valid leaf; an invalid leaf on a complete path with no frame offered; one node missing with one frame;
two missing with two frames; two missing with one frame. -/
theorem witness_MapGoesOnOrHalts :
    ((mapped [.map 0 0x10000#27 0x80000#44 0x06#8]).Sound ∧ translation (mapped []).mem 0x80400#44 0x10000#27 = some 0x20000007#64 ∧
      pteIsValid 0x20000007#64 = true) ∧
    ((unmapped [.map 0 0x10000#27 0x80000#44 0x06#8]).Sound ∧ translation (unmapped []).mem 0x80400#44 0x10000#27 = some 0#64 ∧
      missingNodes (unmapped []).mem 0x80400#44 0x10000#27 = 0 ∧ (unmapped []).frames = []) ∧
    ((oneFrame [.map 0 0x10200#27 0x80000#44 0x06#8]).Sound ∧ translation (oneFrame []).mem 0x80400#44 0x10200#27 = none ∧
      missingNodes (oneFrame []).mem 0x80400#44 0x10200#27 = 1 ∧ 0x80403#44 ∈ (oneFrame []).frames ∧ 0x80403#44 ∉ (oneFrame []).ownedFrames) ∧
    ((constructed [.map 0 0x10000#27 0x80000#44 0x06#8]).Sound ∧ missingNodes (constructed []).mem 0x80400#44 0x10000#27 = 2 ∧
      0x80401#44 ≠ 0x80402#44 ∧ (∀ f ∈ [0x80401#44, 0x80402#44], f ∈ (constructed []).frames ∧ f ∉ (constructed []).ownedFrames)) ∧
    ((oneFrame [.map 0 0x40000#27 0x80000#44 0x06#8]).Sound ∧ missingNodes (oneFrame []).mem 0x80400#44 0x40000#27 = 2 ∧
      ¬ ∃ new : List PPN, new.Nodup ∧ new.length = 2 ∧ ∀ f ∈ new, f ∈ (oneFrame []).frames ∧ f ∉ (oneFrame []).ownedFrames) := by
  refine ⟨⟨mapped_sound _, by decide, by decide⟩, ⟨unmapped_sound _, by decide, by decide, rfl⟩,
    ⟨oneFrame_sound _, by decide, by decide, by decide, by decide⟩, ⟨constructed_sound _, by decide, by decide, ?_⟩,
    oneFrame_sound _, by decide, not_two_of_one fun x h => by simpa [oneFrame] using h.1⟩
  intro f hf
  rcases List.mem_cons.mp hf with rfl | hf
  · decide
  · obtain rfl : f = 0x80402#44 := by simpa using hf
    decide

/-- Another page of the same table, and a page of another table. -/
theorem witness_MapLeavesOtherPagesAlone : (twoTables [.map 0 0x10000#27 0x80000#44 0x06#8]).Sound ∧
    (∃ t, step (twoTables [.map 0 0x10000#27 0x80000#44 0x06#8]) = .next t) ∧ (0x10001#27 : VPN) ≠ 0x10000#27 ∧ 1 ≠ 0 ∧
    (twoTables []).table? 0 = some threeFrames ∧ threeFrames.kind = .owner ∧
    (∃ tb', (twoTables []).table? 1 = some tb' ∧ tb'.kind = .owner) :=
  ⟨twoTables_sound _, goes_on (by decide), by decide, by decide, rfl, rfl, _, rfl, rfl⟩

theorem witness_MapOwnsOneFramePerMissingNode : (constructed [.map 0 0x10000#27 0x80000#44 0x06#8]).Sound ∧
    (∃ t, step (constructed [.map 0 0x10000#27 0x80000#44 0x06#8]) = .next t) ∧
    missingNodes (constructed []).mem 0x80400#44 0x10000#27 = 2 := ⟨constructed_sound _, goes_on (by decide), by decide⟩

/-- The byte after the last owned frame; where the leaf slot exists, the bytes at its two ends; and where a node
is missing, bytes at the ends of the missing entry's slot. -/
theorem witness_MapWritesOnlyItsOwnFrames :
    ((unmapped [.map 0 0x10000#27 0x80000#44 0x06#8]).Sound ∧
      (∃ t, step (unmapped [.map 0 0x10000#27 0x80000#44 0x06#8]) = .next t) ∧
      threeFrames.owned.all (fun f => !inFrame f 0x80403000) = true ∧
      find (unmapped []).mem 0x80400#44 0x10000#27 = some 0x80402000#56 ∧
      0x80401FFF < (0x80402000#56 : PA).toNat ∧ (0x80402000#56 : PA).toNat + 8 ≤ 0x80402008) ∧
    ((constructed [.map 0 0x10000#27 0x80000#44 0x06#8]).Sound ∧
      (∃ t, step (constructed [.map 0 0x10000#27 0x80000#44 0x06#8]) = .next t) ∧
      enter (constructed []).mem 0x80400#44 (vpnIndex0 0x10000#27) = none ∧ inFrame 0x80400#44 0x80400008 = true ∧
      (slot 0x80400#44 (vpnIndex0 0x10000#27)).toNat + 8 ≤ 0x80400008) ∧
    ((oneFrame [.map 0 0x10200#27 0x80000#44 0x06#8]).Sound ∧
      (∃ t, step (oneFrame [.map 0 0x10200#27 0x80000#44 0x06#8]) = .next t) ∧
      enter (oneFrame []).mem 0x80400#44 (vpnIndex0 0x10200#27) = some 0x80401#44 ∧
      enter (oneFrame []).mem 0x80401#44 (vpnIndex1 0x10200#27) = none ∧
      inFrame 0x80401#44 0x80401407 = true ∧ 0x80401407 < (slot 0x80401#44 (vpnIndex1 0x10200#27)).toNat ∧
      inFrame 0x80401#44 0x80401410 = true ∧ (slot 0x80401#44 (vpnIndex1 0x10200#27)).toNat + 8 ≤ 0x80401410) :=
  ⟨⟨unmapped_sound _, goes_on (by decide), by decide, by decide, by decide, by decide⟩,
    ⟨constructed_sound _, goes_on (by decide), by decide, by decide, by decide⟩,
    oneFrame_sound _, goes_on (by decide), by decide, by decide, by decide, by decide, by decide, by decide⟩

theorem witness_UnmapEmptiesTheLeafOrHalts :
    ((constructed [.unmap 0 0x10000#27]).Sound ∧ find (constructed []).mem 0x80400#44 0x10000#27 = none) ∧
    ((unmapped [.unmap 0 0x10000#27]).Sound ∧ translation (unmapped []).mem 0x80400#44 0x10000#27 = some 0#64 ∧ pteIsValid 0#64 = false) ∧
    ((mapped [.unmap 0 0x10000#27]).Sound ∧ find (mapped []).mem 0x80400#44 0x10000#27 = some 0x80402000#56 ∧
      translation (mapped []).mem 0x80400#44 0x10000#27 = some 0x20000007#64 ∧ pteIsValid 0x20000007#64 = true) := by
  refine ⟨⟨constructed_sound _, by decide⟩, ⟨unmapped_sound _, by decide, by decide⟩, mapped_sound _, by decide, by decide, by decide⟩

theorem witness_TranslateReadsAndWritesNothing :
    missingNodes (constructed []).mem 0x80400#44 0x10000#27 ≠ 0 ∧
    enter (mapped []).mem 0x80400#44 (vpnIndex0 0x10000#27) = some 0x80401#44 ∧
    enter (mapped []).mem 0x80401#44 (vpnIndex1 0x10000#27) = some 0x80402#44 ∧
    (mapped [.translate (.r 0) 0 0x10000#27]).status = .running ∧ (mapped []).table? 0 = some threeFrames := by decide

theorem witness_DestroyReleasesTheFrames : (twoTables [.destroy 0]).Sound ∧ (twoTables [.destroy 0]).status = .running ∧
    (twoTables [.destroy 0]).table? 0 = some threeFrames := ⟨twoTables_sound _, rfl, rfl⟩

theorem witness_StaleTranslationsLastUntilInvalidation :
    (∃ t, step (unmapped [.map 0 0x10000#27 0x80000#44 0x06#8]) = .next t) ∧
    (∃ t, step (mapped [.unmap 0 0x10000#27]) = .next t) ∧
    (∃ (s t : State) (e : Stale), step s = .next t ∧ (∀ rest, s.program ≠ .invalidate :: rest) ∧ e ∈ s.stale) ∧
    (mapped [.invalidate]).status = .running :=
  ⟨goes_on (by decide), goes_on (by decide),
    ⟨{ run [.construct] with frames := [0x80400#44], stale := [{ root := 0x80400#44, vpn := 0, old := none }] }, _, _, rfl,
      fun _ h => (by cases h), List.mem_cons_self⟩, rfl⟩

theorem witness_ProcessorSeesExactlyAdmittedTranslations : (mapped []).table? 0 = some threeFrames ∧
    some 0x20000007#64 ∈ (mapped []).admitted 0x80400#44 0x10000#27 := by decide

theorem witness_StatusWritesChangeOnlyAAndD : Memory.wf (mapped []).mem ∧
    find (mapped []).mem 0x80400#44 0x10000#27 = some 0x80402000#56 ∧
    translation (mapped []).mem 0x80400#44 0x10000#27 = some 0x20000007#64 ∧ pteIsValid 0x20000007#64 = true ∧
    (mapped [.processorStatus 0 0x10000#27 true false]).status = .running ∧
    0x80401FFF < (0x80402000#56 : PA).toNat ∧ (0x80402000#56 : PA).toNat + 8 ≤ 0x80402008 ∧
    translation (unmapped []).mem 0x80400#44 0x10000#27 = some 0#64 ∧ pteIsValid 0#64 = false ∧
    translation (constructed []).mem 0x80400#44 0x10000#27 = none := by decide

theorem witness_WalkStepsUseTheBlock : enter (mapped []).mem 0x80400#44 0 = some 0x80401#44 ∧
    enter (constructed []).mem 0x80400#44 0 = none ∧
    (enterCreate (constructed []).ownedFrames 0x80400#44 0 { mem := [], frames := (constructed []).frames, added := [] }).map (·.1) =
      some 0x80401#44 := by decide

end Sys2Proof.Tests
end

section
/-! The obligation of 10_state.md: the block is a function of the request and the build. -/

namespace Sys2Proof.Machine

/-- Settles O5: the one response is `eval` of the build and the request, and builds agree in the two
states (10_state.md R20, 30_encoding.md R70). -/
theorem answerDependsOnRequestAndBuildAlone : Obligations.AnswerDependsOnRequestAndBuildAlone := by
  intro q s s' sameBuild
  refine ⟨eval s.config q, exec_decode q s, ?_⟩
  rw [sameBuild]
  exact exec_decode q s'

end Sys2Proof.Machine
end

section
/-! The obligations of 20_memory.md on unmap and translate: the one PTE write of an unmap at the leaf of an
owning table, and the read of a translate. -/

namespace Sys2Proof.Machine

/-! ## The leaf of a page -/

/-- A page whose walk ends at a leaf slot translates to the entry in it. -/
theorem translation_of_find {m : Memory} {root : PPN} {vpn : VPN} {leaf : PA} (h : find m root vpn = some leaf) :
    translation m root vpn = some (m.readPTE leaf) := by
  rw [translation, h]

/-- A page translates to nothing exactly where a node of its path is missing. -/
theorem translation_eq_none_iff (m : Memory) (root : PPN) (vpn : VPN) :
    translation m root vpn = none ↔ missingNodes m root vpn ≠ 0 := by
  rw [translation_eq, missingNodes]
  cases enter m root (vpnIndex0 vpn) with
  | none => simp
  | some n1 =>
    simp only
    cases enter m n1 (vpnIndex1 vpn) <;> simp

/-- The nodes on the path of a page of an owning table are owned, at depths 1 and 2. -/
theorem Table.Tree.path {m : Memory} {tb : Table} {depth : PPN → Nat} (tree : tb.Tree m depth)
    {i0 i1 : LevelIndex} {n1 n2 : PPN} (h1 : enter m tb.root i0 = some n1) (h2 : enter m n1 i1 = some n2) :
    (n1 ∈ tb.owned ∧ depth n1 = 1) ∧ n2 ∈ tb.owned ∧ depth n2 = 2 := by
  have root := tree.rootDepth
  obtain ⟨own1, d1⟩ := tree.child _ tree.rootOwned (by omega) _ _ h1
  obtain ⟨own2, d2⟩ := tree.child _ own1 (by omega) _ _ h2
  exact ⟨⟨own1, by omega⟩, own2, by omega⟩

/-- A write to the leaf slot of a page of an owning table is what the page translates to next: the leaf node
is neither the root nor the node between, so the walk still ends there. -/
theorem Table.Tree.translation_write_leaf {m : Memory} {tb : Table} {depth : PPN → Nat} (tree : tb.Tree m depth)
    (rising : m.Rising) {vpn : VPN} {leaf : PA} (h : find m tb.root vpn = some leaf) (e : PTE) :
    translation (m.writePTE leaf e) tb.root vpn = some e := by
  obtain ⟨n1, n2, h1, h2, rfl⟩ := find_some h
  obtain ⟨⟨-, d1⟩, -, d2⟩ := tree.path h1 h2
  have notLeaf : ∀ n, depth n < 2 → n ≠ n2 := by rintro n hn rfl; omega
  have hroot : tb.root ≠ n2 := notLeaf _ (by rw [tree.rootDepth]; omega)
  have hn1 : n1 ≠ n2 := notLeaf _ (by omega)
  rw [translation_of_enter ((enter_writePTE_other _ _ _ _ _ _ fun hc => hroot hc.1).trans h1)
    ((enter_writePTE_other _ _ _ _ _ _ fun hc => hn1 hc.1).trans h2), Memory.readPTE_writePTE_same _ _ _ rising]

/-- In a sound state an owning table is a tree. -/
theorem State.Sound.tree {s : State} (sound : s.Sound) {k : Nat} {tb : Table} (table : s.table? k = some tb)
    (owner : tb.kind = .owner) : ∃ depth, tb.Tree s.mem depth := by
  simpa only [Table.Sound, owner] using sound.table k tb table

/-! ## An unmap line of an owning table, case by case (R56) -/

section UnmapLine

variable {s : State} {k : Nat} {tb : Table} {vpn : VPN} {rest : List Line} (running : s.status = .running)
  (program : s.program = .unmap k vpn :: rest) (table : s.table? k = some tb) (owner : tb.kind = .owner)

include running program table owner

theorem step_unmap_missing (missing : find s.mem tb.root vpn = none) :
    step s = .fault (.hostHalt .unmapThroughMissingNode) := by
  rw [step_of_line running program]
  simp [runLine, hostUnmap, table, owner, missing, proceed]

theorem step_unmap_invalid {leaf : PA} (found : find s.mem tb.root vpn = some leaf)
    (invalid : pteIsValid (s.mem.readPTE leaf) = false) : step s = .fault (.hostHalt .unmapOfInvalidLeaf) := by
  rw [step_of_line running program]
  simp [runLine, hostUnmap, table, owner, found, invalid, proceed]

theorem step_unmap_valid {leaf : PA} (found : find s.mem tb.root vpn = some leaf)
    (valid : pteIsValid (s.mem.readPTE leaf) = true) :
    step s = .next { s.withProgram rest with mem := s.mem.writePTE leaf pteEmpty
                                             stale := s.rememberStale tb.root vpn }.finish := by
  rw [step_of_line running program]
  simp [runLine, hostUnmap, table, owner, found, valid, proceed, State.rememberStale]

end UnmapLine

/-- Settles O55: the three cases of R56 follow the walk to the leaf and its Valid flag; where unmap goes on it
writes the empty sentinel to the leaf slot alone, and the tree of the table keeps the path to it. -/
theorem unmapEmptiesTheLeafOrHalts : Obligations.UnmapEmptiesTheLeafOrHalts := by
  intro s k tb vpn rest sound running program table owner
  refine ⟨step_unmap_missing running program table owner, fun e entry invalid => ?_,
    fun leaf e found entry valid => ?_⟩
  · obtain ⟨_, _, -, -, found, rfl⟩ := translation_some entry
    exact step_unmap_invalid running program table owner found invalid
  · obtain rfl : s.mem.readPTE leaf = e := Option.some.inj ((translation_of_find found).symm.trans entry)
    obtain ⟨depth, tree⟩ := sound.tree table owner
    refine ⟨_, step_unmap_valid running program table owner found valid, ?_, rfl, rfl, fun a outside => ?_⟩
    · exact tree.translation_write_leaf sound.memory.1 found pteEmpty
    · exact Memory.readByte_writeLE_other _ _ _ _ _ outside

/-! ## A translate line (R57) -/

theorem State.lookup_finish (s : State) (x : ResultName) : s.finish.lookup x = s.lookup x := rfl

theorem step_translate {s : State} {d : ResultName} {k : Nat} {tb : Table} {vpn : VPN} {rest : List Line}
    (running : s.status = .running) (program : s.program = .translate d k vpn :: rest)
    (table : s.table? k = some tb) :
    step s = .next ((s.withProgram rest).bind d (entryValue (translation s.mem tb.root vpn))).finish := by
  rw [step_of_line running program]
  simp [runLine, hostTranslate, table, proceed]

/-- Settles O56: a translate binds the translation of the page and changes no other field; the translation is
absent where a node is missing, else the entry at the end of the path (R57). -/
theorem translateReadsAndWritesNothing : Obligations.TranslateReadsAndWritesNothing := by
  intro s d k tb vpn rest running program table
  refine ⟨_, step_translate running program table, rfl, rfl, rfl, rfl, fun missing => ?_, fun n1 n2 h1 h2 => ?_⟩
  · rw [State.lookup_finish, State.lookup_bind_same, (translation_eq_none_iff _ _ _).mpr missing, entryValue]
  · rw [State.lookup_finish, State.lookup_bind_same, translation_of_enter h1 h2, entryValue]

end Sys2Proof.Machine
end

section
/-! The obligations of 30_encoding.md on the lines of a response and on the reserved codes. -/

namespace Sys2Proof.Machine

/-- Settles O6: each line is read off the form of the response, and the code lines of a fault off the
numbering of R78 (30_encoding.md R72, R77). -/
theorem responseLinesFollowTheTable : Obligations.ResponseLinesFollowTheTable := by
  refine ⟨fun y => ?result, fun c => ?fault, ?codes⟩
  case result => exact ⟨rfl, rfl, rfl⟩
  case fault => exact ⟨rfl, rfl⟩
  case codes => exact ⟨rfl, rfl, rfl, rfl⟩

/-! ## The reserved codes (R81) -/

/-- The codes from 0x1A up are the six of R81. -/
theorem reservedCode_cases : ∀ op : OpCode, 0x1a#5 ≤ op →
    op = 0x1a#5 ∨ op = 0x1b#5 ∨ op = 0x1c#5 ∨ op = 0x1d#5 ∨ op = 0x1e#5 ∨ op = 0x1f#5 := by
  decide

/-- A reserved code decodes to one of the two reserved rows, whatever is on the buses. -/
theorem decode_reservedCode {op : OpCode} (reserved : 0x1a#5 ≤ op) (a b : Word) :
    (∃ x, decode { op := op, a := a, b := b } = .reserved1101x x) ∨
      ∃ x, decode { op := op, a := a, b := b } = .reserved111xx x := by
  obtain rfl | rfl | rfl | rfl | rfl | rfl := reservedCode_cases op reserved
  · exact .inl ⟨0#1, by simp [decode]⟩
  · exact .inl ⟨1#1, by simp [decode]⟩
  · exact .inr ⟨0#2, by simp [decode]⟩
  · exact .inr ⟨1#2, by simp [decode]⟩
  · exact .inr ⟨2#2, by simp [decode]⟩
  · exact .inr ⟨3#2, by simp [decode]⟩

theorem exec_reserved1101x (x : BitVec 1) (s : State) :
    exec (.reserved1101x x) s = .next (s.withResponse (.fault .illegalOp)) :=
  exec_eq _ s

theorem exec_reserved111xx (x : BitVec 2) (s : State) :
    exec (.reserved111xx x) s = .next (s.withResponse (.fault .illegalOp)) :=
  exec_eq _ s

/-- Settles O7: a code from 0x1A up decodes to a reserved row, and both reserved rows are answered with
ILLEGAL_OP (30_encoding.md R81, 60_exceptions.md R201). -/
theorem reservedCodesAnswerIllegalOp : Obligations.ReservedCodesAnswerIllegalOp := by
  refine ⟨fun op a b s reserved => ?_, exec_reserved1101x, exec_reserved111xx, rfl⟩
  obtain ⟨x, row⟩ | ⟨x, row⟩ := decode_reservedCode reserved a b
  · rw [Faults, row, exec_reserved1101x]
  · rw [Faults, row, exec_reserved111xx]

end Sys2Proof.Machine
end

section
/-! The obligations of 40_address_masking.md on the narrowing operations and on widening a VirtAddr. -/

namespace Sys2Proof.Machine

/-! ## Widening (R104, R107) -/

/-- Widening keeps the 39 bits of the VirtAddr and copies bit 38 above them. -/
theorem getLsbD_vaToWord (v : VA) {i : Nat} (inWord : i < 64) :
    (vaToWord v).getLsbD i = if i < 39 then v.getLsbD i else v.getLsbD 38 := by
  rw [vaToWord, BitVec.getLsbD_signExtend, BitVec.msb_eq_getLsbD_last, decide_eq_true inWord, Bool.true_and]

theorem canonical_vaToWord (v : VA) : Canonical (vaToWord v) := by
  intro i above inWord
  rw [getLsbD_vaToWord v inWord, getLsbD_vaToWord v (by decide), if_neg (by omega), if_pos (by decide)]

theorem vaToWord_of_bit38_set {v : VA} (set : v.getLsbD 38 = true) : vaToWord v = 0x1FFFFFF#25 ++ v := by
  have msb : v.msb = true := by rw [BitVec.msb_eq_getLsbD_last, set]
  rw [vaToWord, BitVec.signExtend_eq_append_of_le (by decide), if_pos msb]
  rfl

theorem vaToWord_of_bit38_clear {v : VA} (clear : v.getLsbD 38 = false) : vaToWord v = v.setWidth 64 := by
  have msb : v.msb = false := by rw [BitVec.msb_eq_getLsbD_last, clear]
  exact BitVec.signExtend_eq_setWidth_of_msb_false msb

/-- Bits 63:39 of the widened VirtAddr, as a number, are 25 ones when bit 38 is set. -/
theorem vaToWord_high_of_bit38_set {v : VA} (set : v.getLsbD 38 = true) :
    (vaToWord v).toNat / 2 ^ 39 = 2 ^ 25 - 1 := by
  rw [vaToWord_of_bit38_set set, BitVec.toNat_append, ← Nat.shiftRight_eq_div_pow, Nat.shiftRight_or_distrib,
    Nat.shiftLeft_shiftRight, Nat.shiftRight_eq_zero _ _ v.isLt]
  rfl

/-- Operation code 0x04 is VA_TO_WORD of the low 39 bits of the bus, whatever the bits above them hold. -/
theorem decode_vaToWord (a b : Word) :
    decode { op := 0x04#5, a := a, b := b } = .vaToWord (a.extractLsb' 0 39) := rfl

theorem exec_vaToWord (v : VA) (s : State) :
    exec (.vaToWord v) s = .next (s.withResponse (.result (vaToWord v))) := exec_eq _ s

/-- A VirtAddr zero extended onto the bus is the operand VA_TO_WORD reads back (R74, R76). -/
theorem gives_vaToWord (v : VA) (b : Word) (s : State) : Gives s 0x04#5 (v.setWidth 64) b (vaToWord v) := by
  have operand : (v.setWidth 64).extractLsb' 0 39 = v := by
    rw [BitVec.extractLsb'_setWidth_of_le (by decide), BitVec.extractLsb'_eq_self]
  rw [Gives, decode_vaToWord, operand, exec_vaToWord]

/-- Settles O12: VA_TO_WORD answers `vaToWord v`, which is canonical, and bit 38 decides between 25 ones
above `v` and `v` itself (R107). -/
theorem wideningIsCanonical : Obligations.WideningIsCanonical := fun v b s =>
  ⟨vaToWord v, gives_vaToWord v b s, canonical_vaToWord v, vaToWord_high_of_bit38_set, vaToWord_of_bit38_clear⟩

/-- Settles O10: by cases on bit 38 of the bus, which is bit 38 of the operand slice (R104). -/
theorem vaToWordCopiesBit38 : Obligations.VaToWordCopiesBit38 := by
  intro a b s
  refine ⟨decode_vaToWord a b, ?_⟩
  have bit : (a.extractLsb' 0 39).getLsbD 38 = a.getLsbD 38 := by simp
  rw [exec_vaToWord]
  cases h : a.getLsbD 38 with
  | true => rw [vaToWord_of_bit38_set (bit.trans h), if_pos rfl]
  | false => rw [vaToWord_of_bit38_clear (bit.trans h), if_neg Bool.false_ne_true]

/-! ## Narrowing (R100 to R103, R110) -/

/-- The low slice of a word, back on the result bus, is the word modulo a power of two (R76, R105). -/
theorem onBus_lowBits (w : Word) {n : Nat} (fits : n ≤ 64) :
    onBus (w.extractLsb' 0 n) = BitVec.ofNat 64 (w.toNat % 2 ^ n) := by
  apply BitVec.eq_of_toNat_eq
  have small : w.toNat % 2 ^ n < 2 ^ 64 := (Nat.mod_le _ _).trans_lt w.isLt
  rw [onBus_toNat _ fits, BitVec.extractLsb'_toNat, Nat.shiftRight_zero, BitVec.toNat_ofNat,
    Nat.mod_eq_of_lt small]

/-- An instruction that answers the low `n` bits of a word on the result bus answers the word modulo `2 ^ n`. -/
theorem exec_of_lowBits {i : Instr} {w : Word} {s : State} (n : Nat) (fits : n ≤ 64)
    (answer : evalInstr s.config i = .result (onBus (w.extractLsb' 0 n))) :
    exec i s = .next (s.withResponse (.result (BitVec.ofNat 64 (w.toNat % 2 ^ n)))) := by
  rw [exec_eq, answer, onBus_lowBits w fits]

/-- Settles O9: each of the five codes decodes to its operation on the whole word, which answers the slice of
its own width (R100 to R103, R110). -/
theorem narrowingKeepsTheLowBits : Obligations.NarrowingKeepsTheLowBits := by
  intro a b s
  exact ⟨⟨rfl, exec_of_lowBits 56 (by decide) rfl⟩, ⟨rfl, exec_of_lowBits 44 (by decide) rfl⟩,
    ⟨rfl, exec_of_lowBits 39 (by decide) rfl⟩, ⟨rfl, exec_of_lowBits 27 (by decide) rfl⟩,
    ⟨rfl, exec_of_lowBits 44 (by decide) rfl⟩⟩

end Sys2Proof.Machine
end

section
/-! The obligations of 41_page_arithmetic.md on page offsets, floor, ceil, the conversions between addresses
and page numbers, and the level indices. -/

namespace Sys2Proof.Machine

/-! ## Slices and bus values as numbers -/

/-- A slice of a value divides by the weight of its lowest bit and keeps its width (R74). -/
theorem slice_toNat {w : Nat} (v : BitVec w) (start n : Nat) :
    (v.extractLsb' start n).toNat = v.toNat / 2 ^ start % 2 ^ n := by
  rw [BitVec.extractLsb'_toNat, Nat.shiftRight_eq_div_pow]

/-- The low slice of a value is the value modulo a power of two. -/
theorem lowBits_toNat {w : Nat} (v : BitVec w) (n : Nat) : (v.extractLsb' 0 n).toNat = v.toNat % 2 ^ n := by
  rw [slice_toNat, Nat.pow_zero, Nat.div_one]

/-- Nothing above an operand of at least 12 bits reaches its page offset. -/
theorem operand_toNat_mod_page (a : Word) {n : Nat} (wide : 12 ≤ n) :
    (a.extractLsb' 0 n).toNat % 4096 = a.toNat % 4096 := by
  rw [lowBits_toNat]
  exact Nat.mod_mod_of_dvd _ (Nat.pow_dvd_pow 2 wide)

/-- An instruction that puts a typed value on the result bus answers the number of that value (R76). -/
theorem exec_of_onBus {i : Instr} {s : State} {n : Nat} {v : BitVec n} {k : Nat}
    (answer : evalInstr s.config i = .result (onBus v)) (value : v.toNat = k) :
    exec i s = .next (s.withResponse (.result (BitVec.ofNat 64 k))) := by
  rw [exec_eq, answer, ← value, BitVec.ofNat_toNat, onBus]

/-! ## The values of page arithmetic as numbers -/

theorem paPageOffset_toNat (v : PA) : (paPageOffset v).toNat = v.toNat % 4096 :=
  lowBits_toNat v 12

theorem vaPageOffset_toNat (v : VA) : (vaPageOffset v).toNat = v.toNat % 4096 :=
  lowBits_toNat v 12

theorem paFloor_toNat (v : PA) : (paFloor v).toNat = v.toNat / 4096 := by
  rw [paFloor, slice_toNat]
  omega

theorem vaFloor_toNat (v : VA) : (vaFloor v).toNat = v.toNat / 4096 := by
  rw [vaFloor, slice_toNat]
  omega

theorem ppnToPa_toNat (p : PPN) : (ppnToPa p).toNat = p.toNat * 4096 := by
  rw [ppnToPa, BitVec.toNat_append, BitVec.toNat_ofNat, Nat.zero_mod, Nat.or_zero, Nat.shiftLeft_eq]

theorem vpnToVa_toNat (p : VPN) : (vpnToVa p).toNat = p.toNat * 4096 := by
  rw [vpnToVa, BitVec.toNat_append, BitVec.toNat_ofNat, Nat.zero_mod, Nat.or_zero, Nat.shiftLeft_eq]

theorem vpnIndex0_toNat (p : VPN) : (vpnIndex0 p).toNat = p.toNat / 2 ^ 18 := by
  rw [vpnIndex0, slice_toNat]
  omega

theorem vpnIndex1_toNat (p : VPN) : (vpnIndex1 p).toNat = p.toNat / 2 ^ 9 % 2 ^ 9 :=
  slice_toNat p 9 9

theorem vpnIndex2_toNat (p : VPN) : (vpnIndex2 p).toNat = p.toNat % 2 ^ 9 :=
  lowBits_toNat p 9

/-! ## Ceil (R134, R135, R137, R143) -/

/-- Ceil over numbers: no address type reaches the width of the bus, so the 64-bit sum does not wrap. -/
theorem ceilResponse_eq (config : Config) {pages v : Word} (small : v.toNat ≤ 2 ^ 56) :
    ceilResponse config pages v =
      if v.toNat = 0 then (if config.ceilZeroFaults then .fault .ceilZero else .result 0#64)
      else if (v.toNat - 1 + 4096) / 4096 = pages.toNat then .fault .ceilOverflow
      else .result (BitVec.ofNat 64 ((v.toNat - 1 + 4096) / 4096)) := by
  by_cases zero : v = 0#64
  · rw [zero, ceilResponse_zero, BitVec.toNat_ofNat, Nat.zero_mod, if_pos rfl]
  · have nonzero : v.toNat ≠ 0 := fun h => zero (BitVec.eq_of_toNat_eq h)
    have sum : v.toNat - 1 + 4096 = v.toNat + 4095 := by omega
    simp only [ceilResponse_nonzero config pages v zero, if_neg nonzero, sum,
      ← ceilQuotient_toNat v zero small, BitVec.toNat_inj, BitVec.ofNat_toNat, BitVec.setWidth_eq]

/-- Ceil of an operand slice of the bus, `n` bits wide. -/
theorem ceilResponse_operand (config : Config) (pages a : Word) {n : Nat} (fits : n ≤ 56) :
    ceilResponse config pages (onBus (a.extractLsb' 0 n)) =
      if a.toNat % 2 ^ n = 0 then (if config.ceilZeroFaults then .fault .ceilZero else .result 0#64)
      else if (a.toNat % 2 ^ n - 1 + 4096) / 4096 = pages.toNat then .fault .ceilOverflow
      else .result (BitVec.ofNat 64 ((a.toNat % 2 ^ n - 1 + 4096) / 4096)) := by
  have value : (onBus (a.extractLsb' 0 n)).toNat = a.toNat % 2 ^ n := by
    rw [onBus_toNat _ (by omega), lowBits_toNat]
  have small : (onBus (a.extractLsb' 0 n)).toNat ≤ 2 ^ 56 := by
    rw [value]
    exact (Nat.mod_lt _ (Nat.two_pow_pos n)).le.trans (Nat.pow_le_pow_right (by decide) fits)
  rw [ceilResponse_eq config small, value]

/-- Settles O17: both codes are ceil of their operand slice, with as many pages as the address type has
(R137, R143). -/
theorem ceilRoundsUpOrFaults : Obligations.CeilRoundsUpOrFaults := by
  intro a b s
  refine ⟨⟨rfl, ?pa⟩, ⟨rfl, ?va⟩⟩
  case pa =>
    rw [exec_eq, evalInstr, evalPaCeil, ceilResponse_operand _ _ _ (by decide)]
    rfl
  case va =>
    rw [exec_eq, evalInstr, evalVaCeil, ceilResponse_operand _ _ _ (by decide)]
    rfl

/-! ## Page offset and alignment (R130 to R133, R138, R144) -/

/-- An alignment test on the result bus is 1 exactly where the page offset is 0. -/
theorem boolOnBus_offset (o : PageOffset) :
    boolOnBus (o == 0#12) = if o.toNat = 0 then 1#64 else 0#64 := by
  simp only [boolOnBus, beq_iff_eq, BitVec.toNat_eq, BitVec.toNat_ofNat, Nat.zero_mod]

theorem alignedResponse_eq (o : PageOffset) (y : Word) :
    alignedResponse o y = if o.toNat ≠ 0 then .fault .misaligned else .result y := by
  simp only [alignedResponse, ne_eq, BitVec.toNat_eq, BitVec.toNat_ofNat, Nat.zero_mod]

/-- Settles O15: the offset of the operand slice is that of the whole bus, and the tests compare it with 0
(R130 to R133). -/
theorem pageOffsetAndAlignment : Obligations.PageOffsetAndAlignment := by
  intro a b s
  have paOffset : (paPageOffset (a.extractLsb' 0 56)).toNat = a.toNat % 4096 := by
    rw [paPageOffset_toNat, operand_toNat_mod_page a (by decide)]
  have vaOffset : (vaPageOffset (a.extractLsb' 0 39)).toNat = a.toNat % 4096 := by
    rw [vaPageOffset_toNat, operand_toNat_mod_page a (by decide)]
  refine ⟨⟨rfl, exec_of_onBus rfl paOffset⟩, ⟨rfl, ?paAligned⟩, ⟨rfl, exec_of_onBus rfl vaOffset⟩,
    ⟨rfl, ?vaAligned⟩⟩
  case paAligned => rw [exec_eq, evalInstr, evalPaAligned, paAligned, boolOnBus_offset, paOffset]
  case vaAligned => rw [exec_eq, evalInstr, evalVaAligned, vaAligned, boolOnBus_offset, vaOffset]

/-! ## Floor and the conversions (R136, R138, R139, R142, R144, R145) -/

/-- The page number of a physical operand, as it appears on the result bus. -/
theorem onBus_paFloor_operand (a : Word) :
    onBus (paFloor (a.extractLsb' 0 56)) = BitVec.ofNat 64 (a.toNat % 2 ^ 56 / 4096) := by
  rw [onBus, ← BitVec.ofNat_toNat, paFloor_toNat, lowBits_toNat]

/-- The page number of a virtual operand, as it appears on the result bus. -/
theorem onBus_vaFloor_operand (a : Word) :
    onBus (vaFloor (a.extractLsb' 0 39)) = BitVec.ofNat 64 (a.toNat % 2 ^ 39 / 4096) := by
  rw [onBus, ← BitVec.ofNat_toNat, vaFloor_toNat, lowBits_toNat]

/-- Settles O16: floor answers the page number of the operand slice (R136, R142). -/
theorem floorDividesByPageSize : Obligations.FloorDividesByPageSize := by
  intro a b s
  refine ⟨⟨rfl, ?pa⟩, ⟨rfl, ?va⟩⟩
  case pa => rw [exec_eq, evalInstr, evalPaFloor, onBus_paFloor_operand]
  case va => rw [exec_eq, evalInstr, evalVaFloor, onBus_vaFloor_operand]

/-- Settles O18: the fault is decided by the page offset of the bus, and the result is that of floor
(R138, R144, R202). -/
theorem conversionsRequireAlignment : Obligations.ConversionsRequireAlignment := by
  intro a b s
  refine ⟨⟨rfl, ?pa⟩, ⟨rfl, ?va⟩⟩
  case pa =>
    rw [exec_eq, evalInstr, evalPaToPpn, alignedResponse_eq, paPageOffset_toNat,
      operand_toNat_mod_page a (by decide), onBus_paFloor_operand]
  case va =>
    rw [exec_eq, evalInstr, evalVaToVpn, alignedResponse_eq, vaPageOffset_toNat,
      operand_toNat_mod_page a (by decide), onBus_vaFloor_operand]

/-- Settles O19: the operand slice with 12 zero bits below it is that slice times 4096 (R139, R145). -/
theorem pageNumbersShiftByTwelve : Obligations.PageNumbersShiftByTwelve := by
  intro a b s
  refine ⟨⟨rfl, exec_of_onBus rfl ?pa⟩, ⟨rfl, exec_of_onBus rfl ?va⟩⟩
  case pa => rw [ppnToPa_toNat, lowBits_toNat]
  case va => rw [vpnToVa_toNat, lowBits_toNat]

/-! ## Level indices (R150 to R153) -/

/-- Settles O20: each index is a 9-bit slice of the operand slice; for the lower two the bits of the bus
above the slice fall away (R150 to R152). -/
theorem levelIndicesAreNineBitFields : Obligations.LevelIndicesAreNineBitFields := by
  intro a b s
  refine ⟨⟨rfl, exec_of_onBus rfl ?i0⟩, ⟨rfl, exec_of_onBus rfl ?i1⟩, ⟨rfl, exec_of_onBus rfl ?i2⟩⟩
  case i0 => rw [vpnIndex0_toNat, lowBits_toNat]
  case i1 =>
    rw [vpnIndex1_toNat, lowBits_toNat]
    omega
  case i2 =>
    rw [vpnIndex2_toNat, lowBits_toNat]
    omega

/-- The three indices side by side are the page number. -/
theorem vpnIndices_append (v : VPN) : vpnIndex0 v ++ (vpnIndex1 v ++ vpnIndex2 v) = v := by
  rw [vpnIndex0, vpnIndex1, vpnIndex2,
    BitVec.extractLsb'_append_extractLsb'_eq_extractLsb' (show 9 = 0 + 9 from rfl),
    BitVec.extractLsb'_append_extractLsb'_eq_extractLsb' (show 18 = 0 + (9 + 9) from rfl),
    BitVec.extractLsb'_eq_self]

/-- On the bus, the indices shifted to their places and ORed together are the page number. -/
theorem onBus_vpnIndices_or (v : VPN) :
    (onBus (vpnIndex0 v) <<< 18) ||| (onBus (vpnIndex1 v) <<< 9) ||| onBus (vpnIndex2 v) = v.setWidth 64 := by
  conv_rhs => rw [← vpnIndices_append v, BitVec.setWidth_append_eq_shiftLeft_setWidth_or,
    BitVec.setWidth_append_eq_shiftLeft_setWidth_or, ← BitVec.or_assoc]
  rfl

theorem onBus_levelIndex_lt (i : LevelIndex) : (onBus i).toNat < 512 := by
  rw [onBus_toNat i (by decide)]
  exact i.isLt

/-- A typed value zero extended onto the bus is the operand that the block reads back from it, so it is what
the block's answer is about (R74, R76). -/
theorem gives_of_operand {n : Nat} (v : BitVec n) (fits : n ≤ 64) (f : BitVec n → Word) {op : OpCode}
    {b : Word} {s : State} (answer : ∀ a : Word, Gives s op a b (f (a.extractLsb' 0 n))) :
    Gives s op (v.setWidth 64) b (f v) := by
  have operand : (v.setWidth 64).extractLsb' 0 n = v := by
    rw [BitVec.extractLsb'_setWidth_of_le (by omega), BitVec.extractLsb'_eq_self]
  simpa only [operand] using answer (v.setWidth 64)

theorem gives_vpnIndex0 (v : VPN) (b : Word) (s : State) :
    Gives s 0x12#5 (v.setWidth 64) b (onBus (vpnIndex0 v)) :=
  gives_of_operand v (by decide) (fun p => onBus (vpnIndex0 p)) fun _ => exec_decode _ s

theorem gives_vpnIndex1 (v : VPN) (b : Word) (s : State) :
    Gives s 0x13#5 (v.setWidth 64) b (onBus (vpnIndex1 v)) :=
  gives_of_operand v (by decide) (fun p => onBus (vpnIndex1 p)) fun _ => exec_decode _ s

theorem gives_vpnIndex2 (v : VPN) (b : Word) (s : State) :
    Gives s 0x14#5 (v.setWidth 64) b (onBus (vpnIndex2 v)) :=
  gives_of_operand v (by decide) (fun p => onBus (vpnIndex2 p)) fun _ => exec_decode _ s

/-- Settles O24: the block answers the three 9-bit slices of the page number, which side by side are the
page number (R153). -/
theorem indicesReassembleThePageNumber : Obligations.IndicesReassembleThePageNumber := fun v b s =>
  ⟨_, _, _, gives_vpnIndex0 v b s, gives_vpnIndex1 v b s, gives_vpnIndex2 v b s, onBus_levelIndex_lt _,
    onBus_levelIndex_lt _, onBus_levelIndex_lt _, onBus_vpnIndices_or v⟩

end Sys2Proof.Machine
end

section
/-! The obligations of 42_pte_codec.md on packing an entry, on its accessors and on their round trip. -/

namespace Sys2Proof.Machine

/-! ## Entries as numbers (R180, R184) -/

/-- The flag set stands below the page number, so packing adds the two (R180). -/
theorem pteNew_toNat (p : PPN) (f : Flags) : (pteNew p f).toNat = p.toNat * 2 ^ 10 + f.toNat := by
  have ppnSmall := p.isLt
  have flagsBelow : f.toNat < 2 ^ 10 := f.isLt.trans (by decide)
  have ppnOnBus : (p.setWidth 64 <<< 10).toNat = p.toNat <<< 10 := by
    rw [BitVec.toNat_shiftLeft, BitVec.toNat_setWidth_of_le (by decide), Nat.shiftLeft_eq]
    omega
  rw [pteNew, BitVec.toNat_or, ppnOnBus, BitVec.toNat_setWidth_of_le (by decide),
    ← Nat.shiftLeft_add_eq_or_of_lt flagsBelow, Nat.shiftLeft_eq]

/-- The Valid flag on the result bus is the parity of the entry (R184). -/
theorem boolOnBus_pteIsValid (e : PTE) : boolOnBus (pteIsValid e) = BitVec.ofNat 64 (e.toNat % 2) := by
  rw [pteIsValid, BitVec.getLsbD, Nat.testBit_zero]
  obtain even | odd := Nat.mod_two_eq_zero_or_one e.toNat
  · rw [even]; rfl
  · rw [odd]; rfl

/-! ## What the block answers -/

theorem exec_pteNew (p : PPN) (f : Flags) (s : State) :
    exec (.pteNew p f) s = .next (s.withResponse (.result (pteNew p f))) := exec_eq _ s

theorem decode_pteNew (a b : Word) :
    decode { op := 0x15#5, a := a, b := b } = .pteNew (a.extractLsb' 0 44) (b.extractLsb' 0 8) := rfl

/-- A typed value zero extended onto a bus is what its operand slice reads back (R74, R76). -/
theorem operand_of_setWidth {n : Nat} (v : BitVec n) (fits : n ≤ 64) : (v.setWidth 64).extractLsb' 0 n = v := by
  rw [BitVec.extractLsb'_setWidth_of_le (by omega), BitVec.extractLsb'_eq_self]

theorem gives_pteNew (p : PPN) (f : Flags) (s : State) :
    Gives s 0x15#5 (p.setWidth 64) (f.setWidth 64) (pteNew p f) := by
  rw [Gives, decode_pteNew, operand_of_setWidth p (by decide), operand_of_setWidth f (by decide), exec_pteNew]

theorem gives_ptePpn (e b : Word) (s : State) : Gives s 0x17#5 e b (onBus (ptePpn e)) := exec_decode _ s

theorem gives_pteFlags (e b : Word) (s : State) : Gives s 0x18#5 e b (onBus (pteFlags e)) := exec_decode _ s

theorem gives_pteIsValid (e b : Word) (s : State) : Gives s 0x19#5 e b (boolOnBus (pteIsValid e)) :=
  exec_decode _ s

/-! ## The round trip of packing (R185) -/

/-- The page number starts at bit 10, so the low 8 bits of a packed entry are its flag set alone. -/
theorem pteFlags_pteNew (p : PPN) (f : Flags) : pteFlags (pteNew p f) = f := by
  have flagsSmall := f.isLt
  apply BitVec.eq_of_toNat_eq
  rw [pteFlags, lowBits_toNat, pteNew_toNat]
  omega

/-- Settles O28: the entry is `pteNew p f`, whose two fields are `p` and `f` (R185). -/
theorem packedEntriesUnpack : Obligations.PackedEntriesUnpack := by
  intro p f b s
  refine ⟨pteNew p f, gives_pteNew p f s, ?ppn, ?flags⟩
  case ppn => simpa only [ptePpn_pteNew, onBus] using gives_ptePpn (pteNew p f) b s
  case flags => simpa only [pteFlags_pteNew, onBus] using gives_pteFlags (pteNew p f) b s

/-! ## Packing and the accessors by value (R180 to R184) -/

/-- Settles O26: the operand slices are the buses modulo their widths, and packing adds them at their places;
every field of the empty sentinel is 0 (R180, R181). -/
theorem pteNewPacksAndPteEmptyIsZero : Obligations.PteNewPacksAndPteEmptyIsZero := by
  intro a b s
  refine ⟨⟨decode_pteNew a b, ?packs⟩, rfl, exec_eq _ s, gives_ptePpn pteEmpty b s, gives_pteFlags pteEmpty b s,
    gives_pteIsValid pteEmpty b s⟩
  rw [exec_pteNew, ← lowBits_toNat a 44, ← lowBits_toNat b 8, ← pteNew_toNat, BitVec.ofNat_toNat,
    BitVec.setWidth_eq]

/-- Settles O27: PTE_PPN and PTE_FLAGS answer slices of the word and PTE_IS_VALID its lowest bit, whatever
that bit is (R182 to R184). -/
theorem pteAccessorsReadTheirFields : Obligations.PteAccessorsReadTheirFields := by
  intro a b s
  refine ⟨⟨rfl, exec_of_onBus rfl (slice_toNat a 10 44)⟩, ⟨rfl, exec_of_lowBits 8 (by decide) rfl⟩, rfl, ?valid⟩
  rw [exec_eq, evalInstr, evalPteIsValid, boolOnBus_pteIsValid]

end Sys2Proof.Machine
end

section
/-! The obligation of 60_exceptions.md: the causes of the four faults, and that there is no other. -/

namespace Sys2Proof.Machine

/-- The fault an instruction is answered with is the one the block gives, whatever the rest of the state holds
(R200). -/
theorem exec_eq_fault_iff (i : Instr) (s : State) (c : FaultCode) :
    exec i s = .next (s.withResponse (.fault c)) ↔ evalInstr s.config i = .fault c := by
  rw [exec_eq]
  constructor
  · intro answer
    have next : s.withResponse (evalInstr s.config i) = s.withResponse (.fault c) := Host.Outcome.next.inj answer
    exact Option.some.inj (congrArg State.response next)
  · intro response
    rw [response]

/-- A conversion that requires alignment faults exactly on a non-zero page offset (R202). -/
theorem alignedResponse_eq_fault_iff (o : PageOffset) (y : Word) (c : FaultCode) :
    alignedResponse o y = .fault c ↔ c = .misaligned ∧ o.toNat ≠ 0 := by
  rw [alignedResponse_eq]
  by_cases offset : o.toNat = 0 <;> simp [offset, eq_comm (a := c)]

/-- Ceil of an address of `n` bits faults exactly above the first byte of its top page, and on zero in a
`CEIL_ZERO_FAULTS` build (R203, R204). -/
theorem ceilResponse_onBus_eq_fault_iff (config : Config) {pages : Word} {n : Nat} (v : BitVec n) (fits : n ≤ 56)
    (size : pages.toNat * 4096 = 2 ^ n) (c : FaultCode) :
    ceilResponse config pages (onBus v) = .fault c ↔
      (c = .ceilOverflow ∧ v.toNat > 2 ^ n - 4096) ∨
        (c = .ceilZero ∧ config.ceilZeroFaults = true ∧ v = 0#n) := by
  have zeroNumber : v = 0#n ↔ v.toNat = 0 := BitVec.toNat_eq
  have value : (onBus v).toNat = v.toNat := onBus_toNat v (by omega)
  have inType : v.toNat < pages.toNat * 4096 := size ▸ v.isLt
  have small : v.toNat ≤ 2 ^ 56 := v.isLt.le.trans (Nat.pow_le_pow_right (by decide) fits)
  rw [ceilResponse_eq config (value ▸ small), value, zeroNumber, ← size]
  by_cases zero : v.toNat = 0
  · rw [if_pos zero]
    cases config.ceilZeroFaults <;> simp [zero, eq_comm (a := c)]
  · have pastTop : (v.toNat - 1 + 4096) / 4096 = pages.toNat ↔ v.toNat > pages.toNat * 4096 - 4096 := by omega
    rw [if_neg zero]
    by_cases overflow : v.toNat > pages.toNat * 4096 - 4096
    · rw [if_pos (pastTop.mpr overflow)]
      simp [zero, overflow, eq_comm (a := c)]
    · rw [if_neg (mt pastTop.mp overflow)]
      simp [zero, overflow]

/-- Settles O8: by cases on the instruction. The reserved rows, the two conversions and the two ceils fault as
their shared responses do; every other operation answers a result (R201 to R205). -/
theorem faultsHappenExactlyAsListed : Obligations.FaultsHappenExactlyAsListed := by
  refine ⟨⟨rfl, rfl, rfl, rfl, fun c => by cases c <;> decide⟩, fun i s c => ?_⟩
  rw [exec_eq_fault_iff]
  cases i with
  | reserved1101x x => simp [evalInstr, evalReserved1101x, eq_comm (a := c)]
  | reserved111xx x => simp [evalInstr, evalReserved111xx, eq_comm (a := c)]
  | paToPpn v =>
    rw [evalInstr, evalPaToPpn, alignedResponse_eq_fault_iff, paPageOffset_toNat]
    simp
  | vaToVpn v =>
    rw [evalInstr, evalVaToVpn, alignedResponse_eq_fault_iff, vaPageOffset_toNat]
    simp
  | paCeil v =>
    rw [evalInstr, evalPaCeil, ceilResponse_onBus_eq_fault_iff _ _ (by decide) (by decide)]
    simp
  | vaCeil v =>
    rw [evalInstr, evalVaCeil, ceilResponse_onBus_eq_fault_iff _ _ (by decide) (by decide)]
    simp
  | _ => exact iff_of_false nofun (by simp)

end Sys2Proof.Machine
end

section
/-! The obligations of 30_encoding.md on the decoder and the encoder: the encoder's request of an instruction
decodes back to it, and encoding a decoded request clears the bits its code does not read. -/

namespace Sys2Proof.Machine

/-! ## Decoding what was encoded (R74, R80) -/

/-- A typed value on a bus is what the operand slice of its width reads back (R74, R76). -/
theorem extractLsb'_onBus {n : Nat} (v : BitVec n) (fits : n ≤ 64) : (onBus v).extractLsb' 0 n = v :=
  operand_of_setWidth v fits

@[simp] theorem busPA_onBus (v : PA) : busPA (onBus v) = v := extractLsb'_onBus v (by decide)
@[simp] theorem busVA_onBus (v : VA) : busVA (onBus v) = v := extractLsb'_onBus v (by decide)
@[simp] theorem busPPN_onBus (p : PPN) : busPPN (onBus p) = p := extractLsb'_onBus p (by decide)
@[simp] theorem busVPN_onBus (p : VPN) : busVPN (onBus p) = p := extractLsb'_onBus p (by decide)
@[simp] theorem busFlags_onBus (f : Flags) : busFlags (onBus f) = f := extractLsb'_onBus f (by decide)

theorem decode_encode_reserved1101x : ∀ x, decode (encode (.reserved1101x x)) = .reserved1101x x := by decide

theorem decode_encode_reserved111xx : ∀ x, decode (encode (.reserved111xx x)) = .reserved111xx x := by decide

/-- Decoding the request of an instruction gives the instruction: its code selects its row, and each operand
slice reads back the value put on its bus. -/
theorem decode_encode (i : Instr) : decode (encode i) = i := by
  cases i with
  | paFromWord | ppnFromWord | vaFromWord | vpnFromWord | tokenRootPpn => rfl
  | pteEmpty | ptePpn | pteFlags | pteIsValid => rfl
  | paPageOffset v => exact congrArg Instr.paPageOffset (busPA_onBus v)
  | paAligned v => exact congrArg Instr.paAligned (busPA_onBus v)
  | paFloor v => exact congrArg Instr.paFloor (busPA_onBus v)
  | paCeil v => exact congrArg Instr.paCeil (busPA_onBus v)
  | paToPpn v => exact congrArg Instr.paToPpn (busPA_onBus v)
  | vaToWord v => exact congrArg Instr.vaToWord (busVA_onBus v)
  | vaPageOffset v => exact congrArg Instr.vaPageOffset (busVA_onBus v)
  | vaAligned v => exact congrArg Instr.vaAligned (busVA_onBus v)
  | vaFloor v => exact congrArg Instr.vaFloor (busVA_onBus v)
  | vaCeil v => exact congrArg Instr.vaCeil (busVA_onBus v)
  | vaToVpn v => exact congrArg Instr.vaToVpn (busVA_onBus v)
  | ppnToPa p => exact congrArg Instr.ppnToPa (busPPN_onBus p)
  | vpnToVa p => exact congrArg Instr.vpnToVa (busVPN_onBus p)
  | vpnIndex0 p => exact congrArg Instr.vpnIndex0 (busVPN_onBus p)
  | vpnIndex1 p => exact congrArg Instr.vpnIndex1 (busVPN_onBus p)
  | vpnIndex2 p => exact congrArg Instr.vpnIndex2 (busVPN_onBus p)
  | pteNew p f => exact congrArg₂ Instr.pteNew (busPPN_onBus p) (busFlags_onBus f)
  | reserved1101x x => exact decode_encode_reserved1101x x
  | reserved111xx x => exact decode_encode_reserved111xx x

/-! ## A request as one number (log entry 3) -/

/-- Operation code and buses stand side by side in the number of a request, so each is read back from it. -/
theorem ofNumber_number (q : Request) : Request.ofNumber q.number = q := by
  obtain ⟨op, a, b⟩ := q
  have opSmall : op.toNat < 2 ^ 5 := op.isLt
  have aSmall : a.toNat < 2 ^ 64 := a.isLt
  have bSmall : b.toNat < 2 ^ 64 := b.isLt
  simp only [Request.ofNumber, Request.number, Request.mk.injEq]
  refine ⟨?op, ?a, ?b⟩ <;> apply BitVec.eq_of_toNat_eq <;> rw [BitVec.toNat_ofNat] <;> omega

theorem number_lt (q : Request) : q.number < 2 ^ requestBits := by
  have opSmall : q.op.toNat < 2 ^ 5 := q.op.isLt
  have aSmall : q.a.toNat < 2 ^ 64 := q.a.isLt
  have bSmall : q.b.toNat < 2 ^ 64 := q.b.isLt
  simp only [Request.number, requestBits]
  omega

theorem decodeNumber_number (q : Request) : decodeNumber q.number = .ok (decode q) := by
  rw [decodeNumber, if_pos (number_lt q), ofNumber_number]

/-- Settles O2: an encoded instruction decodes back row by row, and the number of a request holds its three
parts (R74, R80; log entry 3). -/
theorem encodedInstructionsDecodeBack : Obligations.EncodedInstructionsDecodeBack := fun i =>
  ⟨decode_encode i, ofNumber_number (encode i), by rw [decodeNumber_number, decode_encode]⟩

/-! ## Encoding what was decoded (R75, R80) -/

/-- A request with every bus bit that its code does not read cleared (R75). -/
def readPart (q : Request) : Request :=
  { op := q.op, a := q.a &&& readMaskA q.op, b := q.b &&& readMaskB q.op }

/-- An operand slice, back on its bus, is the bus with the bits above the slice masked away. -/
theorem onBus_extractLsb' (w : Word) {n : Nat} (fits : n ≤ 64) :
    onBus (w.extractLsb' 0 n) = w &&& BitVec.ofNat 64 (2 ^ n - 1) := by
  have maskSmall : 2 ^ n - 1 < 2 ^ 64 :=
    (Nat.sub_lt (Nat.two_pow_pos n) one_pos).trans_le (Nat.pow_le_pow_right (by decide) fits)
  apply BitVec.eq_of_toNat_eq
  rw [onBus_toNat _ fits, lowBits_toNat, BitVec.toNat_and, BitVec.toNat_ofNat, Nat.mod_eq_of_lt maskSmall,
    Nat.and_two_pow_sub_one_eq_mod]

theorem onBus_busPA (w : Word) : onBus (busPA w) = w &&& 0x00FFFFFFFFFFFFFF#64 := onBus_extractLsb' w (by decide)
theorem onBus_busVA (w : Word) : onBus (busVA w) = w &&& 0x0000007FFFFFFFFF#64 := onBus_extractLsb' w (by decide)
theorem onBus_busPPN (w : Word) : onBus (busPPN w) = w &&& 0x00000FFFFFFFFFFF#64 := onBus_extractLsb' w (by decide)
theorem onBus_busVPN (w : Word) : onBus (busVPN w) = w &&& 0x0000000007FFFFFF#64 := onBus_extractLsb' w (by decide)
theorem onBus_busFlags (w : Word) : onBus (busFlags w) = w &&& 0xFF#64 := onBus_extractLsb' w (by decide)
theorem and_fullMask (w : Word) : w &&& 0xFFFFFFFFFFFFFFFF#64 = w := BitVec.and_allOnes

/-- A property of operation codes holds of all when it holds of the 32 numbered ones. -/
theorem opCode_forall {P : OpCode → Prop} (numbered : ∀ n, n < 32 → P (BitVec.ofNat 5 n)) (op : OpCode) : P op := by
  simpa only [BitVec.ofNat_toNat, BitVec.setWidth_eq] using numbered op.toNat op.isLt

/-- Encoding the decoded request gives back its code and the bus bits that the code reads (R74, R75, R80). -/
theorem encode_decode (q : Request) : encode (decode q) = readPart q := by
  obtain ⟨op, a, b⟩ := q
  induction op using opCode_forall with
  | numbered n small =>
    interval_cases n <;>
      simp [decode, encode, readPart, Instr.opcode, Instr.buses, readMaskA, readMaskB, onBus_busPA, onBus_busVA,
        onBus_busPPN, onBus_busVPN, onBus_busFlags, and_fullMask]

/-- Decoding looks at the read part of a request alone. -/
theorem decode_readPart (q : Request) : decode (readPart q) = decode q := by
  rw [← encode_decode, decode_encode]

/-- Settles O3: the two requests have one read part, hence one decoded instruction and one response (R75). -/
theorem unreadBusBitsNeverMatter : Obligations.UnreadBusBitsNeverMatter := by
  intro q q' sameCode sameA sameB s
  have sameRead : readPart q = readPart q' := by
    rw [readPart, readPart, sameA, sameB, sameCode]
  have sameInstr : decode q' = decode q := by
    rw [← decode_readPart q, sameRead, decode_readPart]
  exact ⟨eval s.config q, exec_decode q s, by rw [sameInstr, exec_decode]⟩

/-- The code an instruction is encoded with hits its own row of the opcode map alone: row by row, the
statements of Laws/PerInstr.lean. -/
theorem opcodeRow_statement (i : Instr) : Laws.OpcodeRow.Statement i := by
  cases i with
  | paFromWord w => exact Laws.OpcodeRow.paFromWord w
  | ppnFromWord w => exact Laws.OpcodeRow.ppnFromWord w
  | vaFromWord w => exact Laws.OpcodeRow.vaFromWord w
  | vpnFromWord w => exact Laws.OpcodeRow.vpnFromWord w
  | vaToWord v => exact Laws.OpcodeRow.vaToWord v
  | tokenRootPpn t => exact Laws.OpcodeRow.tokenRootPpn t
  | paPageOffset v => exact Laws.OpcodeRow.paPageOffset v
  | paAligned v => exact Laws.OpcodeRow.paAligned v
  | vaPageOffset v => exact Laws.OpcodeRow.vaPageOffset v
  | vaAligned v => exact Laws.OpcodeRow.vaAligned v
  | paFloor v => exact Laws.OpcodeRow.paFloor v
  | paCeil v => exact Laws.OpcodeRow.paCeil v
  | paToPpn v => exact Laws.OpcodeRow.paToPpn v
  | ppnToPa p => exact Laws.OpcodeRow.ppnToPa p
  | vaFloor v => exact Laws.OpcodeRow.vaFloor v
  | vaCeil v => exact Laws.OpcodeRow.vaCeil v
  | vaToVpn v => exact Laws.OpcodeRow.vaToVpn v
  | vpnToVa p => exact Laws.OpcodeRow.vpnToVa p
  | vpnIndex0 p => exact Laws.OpcodeRow.vpnIndex0 p
  | vpnIndex1 p => exact Laws.OpcodeRow.vpnIndex1 p
  | vpnIndex2 p => exact Laws.OpcodeRow.vpnIndex2 p
  | pteNew p f => exact Laws.OpcodeRow.pteNew p f
  | pteEmpty => exact Laws.OpcodeRow.pteEmpty
  | ptePpn e => exact Laws.OpcodeRow.ptePpn e
  | pteFlags e => exact Laws.OpcodeRow.pteFlags e
  | pteIsValid e => exact Laws.OpcodeRow.pteIsValid e
  | reserved1101x x => exact Laws.OpcodeRow.reserved1101x x
  | reserved111xx x => exact Laws.OpcodeRow.reserved111xx x

/-- Settles O4: a request's code is the one its decoded instruction is encoded with, and that code hits the
instruction's row alone (R80, R82). -/
theorem everyCodeHitsItsOneRow : Obligations.EveryCodeHitsItsOneRow := by
  intro q
  have row := opcodeRow_statement (decode q)
  rwa [Laws.OpcodeRow.Statement, encode_decode] at row

/-- Settles O1: each request written out decodes by evaluation to the operation and operand listed (R74, R80). -/
theorem specWordsDecodeAsListed : Obligations.SpecWordsDecodeAsListed := by
  refine ⟨?paFromWord, ?vaToWord, ?paToPpn, ?vpnIndex0, ?pteNew, ?pteEmpty, ?reserved1101x, ?reserved111xx⟩ <;> decide

end Sys2Proof.Machine
end

section
/-! What a step can do, said once: the states in which a host line that goes on can leave the machine. The
statements on every step are read off it (60_exceptions.md R207, 70_reset_and_hazards.md R231, R239). -/

namespace Sys2Proof.Machine

/-- The states a line can leave behind when it went on without a fault, before the run is marked as going on or
succeeded; one constructor for each way of changing the state (30_encoding.md R84, 20_memory.md R53 to R60,
70_reset_and_hazards.md R235, R236). -/
inductive LineDone (s : State) : Line → State → Prop where
  | answered {dest : ResultName} {op : OpCode} {a b : Operand} (q : Request) (y : Word) :
      LineDone s (.request dest op a b) (((s.issue q).withResponse (.result y)).bind dest (.word y))
  | bound {l : Line} {dest : ResultName} (binds : l.binds = some dest) (v : Value) : LineDone s l (s.bind dest v)
  | constructed {f : PPN} {offered : List PPN} (taken : takeFrame s.ownedFrames s.frames = some (f, offered)) :
      LineDone s .construct
        { s with mem := s.mem.zeroFrame f
                 frames := offered
                 tables := s.tables ++ [some { root := f, owned := [f], kind := .owner }] }
  | viewed (token : Word) :
      LineDone s (.fromRootToken token)
        { s with tables := s.tables ++ [some { root := tokenRootPpn token, owned := [], kind := .view }] }
  | mapped {k : Nat} {vpn : VPN} {ppn : PPN} {flags : Flags} {tb : Table} {leaf : PA} {w : Walk}
      (table : s.table? k = some tb) (owner : tb.kind = .owner)
      (walk : findCreate s.ownedFrames tb.root vpn { mem := s.mem, frames := s.frames, added := [] } = some (leaf, w)) :
      LineDone s (.map k vpn ppn flags)
        { s with mem := w.mem.writePTE leaf (pteNew ppn (withValid flags))
                 frames := w.frames
                 tables := s.tables.set k (some { tb with owned := tb.owned ++ w.added })
                 stale := s.rememberStale tb.root vpn }
  | unmapped {k : Nat} {vpn : VPN} {tb : Table} {leaf : PA} (table : s.table? k = some tb) (owner : tb.kind = .owner)
      (found : find s.mem tb.root vpn = some leaf) :
      LineDone s (.unmap k vpn)
        { s with mem := s.mem.writePTE leaf pteEmpty, stale := s.rememberStale tb.root vpn }
  | destroyed {k : Nat} {tb : Table} (table : s.table? k = some tb) :
      LineDone s (.destroy k) { s with tables := s.tables.set k none }
  | invalidated : LineDone s .invalidate { s with stale := [] }
  | untouched {k : Nat} {vpn : VPN} {accessed dirty : Bool} : LineDone s (.processorStatus k vpn accessed dirty) s
  | statusWritten {k : Nat} {vpn : VPN} {accessed dirty : Bool} {tb : Table} {leaf : PA}
      (found : find s.mem tb.root vpn = some leaf) :
      LineDone s (.processorStatus k vpn accessed dirty)
        { s with mem := s.mem.writePTE leaf (withStatusBits (s.mem.readPTE leaf) accessed dirty) }

/-- A line that goes on was answered with a fault, which ends the run in failure, or is done. -/
theorem runLine_next {l : Line} {s t : State} (h : runLine l s = .next t) :
    (∃ q c, t = ((s.issue q).withResponse (.fault c)).fail c) ∨ ∃ s1, LineDone s l s1 ∧ t = s1.finish := by
  cases l with
  | request dest op a b =>
    simp only [runLine] at h
    split at h
    · rename_i q _
      rw [stepRequest_eq] at h
      split at h
      · exact .inr ⟨_, .answered q _, (Host.Outcome.next.inj h).symm⟩
      · exact .inl ⟨q, _, (Host.Outcome.next.inj h).symm⟩
    · cases h
  | memRead dest base index =>
    obtain ⟨_, done, rfl⟩ := proceed_next h
    obtain ⟨v, rfl⟩ := hostMemRead_next done
    exact .inr ⟨_, .bound rfl v, rfl⟩
  | construct =>
    obtain ⟨_, done, rfl⟩ := proceed_next h
    obtain ⟨f, offered, taken, rfl⟩ := hostConstruct_next done
    exact .inr ⟨_, .constructed taken, rfl⟩
  | fromRootToken token => exact .inr ⟨_, .viewed token, (Host.Outcome.next.inj h).symm⟩
  | map k vpn ppn flags =>
    obtain ⟨_, done, rfl⟩ := proceed_next h
    obtain ⟨tb, leaf, w, table, owner, walk, -, rfl⟩ := hostMap_next done
    exact .inr ⟨_, .mapped table owner walk, rfl⟩
  | unmap k vpn =>
    obtain ⟨_, done, rfl⟩ := proceed_next h
    obtain ⟨tb, leaf, table, owner, found, -, rfl⟩ := hostUnmap_next done
    exact .inr ⟨_, .unmapped table owner found, rfl⟩
  | translate dest k vpn =>
    obtain ⟨_, done, rfl⟩ := proceed_next h
    obtain ⟨tb, -, rfl⟩ := hostTranslate_next done
    exact .inr ⟨_, .bound rfl _, rfl⟩
  | destroy k =>
    obtain ⟨_, done, rfl⟩ := proceed_next h
    obtain ⟨tb, table, rfl⟩ := hostDestroy_next done
    exact .inr ⟨_, .destroyed table, rfl⟩
  | invalidate => exact .inr ⟨_, .invalidated, (Host.Outcome.next.inj h).symm⟩
  | processorUse dest k vpn pick =>
    obtain ⟨_, done, rfl⟩ := proceed_next h
    obtain ⟨v, rfl⟩ := processorUse_next done
    exact .inr ⟨_, .bound rfl v, rfl⟩
  | processorStatus k vpn accessed dirty =>
    obtain ⟨_, done, rfl⟩ := proceed_next h
    obtain rfl | ⟨tb, leaf, -, found, -, rfl⟩ := processorStatus_next done
    · exact .inr ⟨_, .untouched, rfl⟩
    · exact .inr ⟨_, .statusWritten found, rfl⟩

/-- The same for a step: the line is the next one of a running run. -/
theorem step_done {s t : State} (h : step s = .next t) :
    s.status = .running ∧ ∃ l rest, s.program = l :: rest ∧
      ((∃ q c, t = (((s.withProgram rest).issue q).withResponse (.fault c)).fail c) ∨
        ∃ s1, LineDone (s.withProgram rest) l s1 ∧ t = s1.finish) := by
  obtain ⟨running, l, rest, program, line⟩ := step_next h
  exact ⟨running, l, rest, program, runLine_next line⟩

/-! ## What every step keeps -/

theorem LineDone.config {s s1 : State} {l : Line} (done : LineDone s l s1) : s1.config = s.config := by
  cases done <;> rfl

/-- Old translations are dropped by an invalidation alone (R47). -/
theorem LineDone.stale {s s1 : State} {l : Line} (done : LineDone s l s1) (line : l ≠ .invalidate) :
    ∀ e ∈ s.stale, e ∈ s1.stale := by
  cases done with
  | invalidated => exact absurd rfl line
  | mapped | unmapped => exact fun _ old => List.mem_cons_of_mem _ old
  | answered | bound | constructed | viewed | destroyed | untouched | statusWritten => exact fun _ old => old

theorem State.finish_succeeded {s : State} (h : s.finish.Succeeded) : s.finish.program = [] := by
  by_contra left
  have : s.program.isEmpty = false := by simpa using left
  simp [State.Succeeded, this] at h

/-- Settles O36: a step that goes on is a line of a running run (R239), and of its two ends only the one without
a fault can be a success, when no line is left. -/
theorem endedRunsStayEnded : Obligations.EndedRunsStayEnded := by
  intro s t h
  obtain ⟨running, l, rest, -, done⟩ := step_done h
  refine ⟨?notFailed, ?notSucceeded, fun success => ?_⟩
  case notFailed => rintro ⟨c, failed⟩; simp [running] at failed
  case notSucceeded => simp [State.Succeeded, running]
  obtain ⟨q, c, rfl⟩ | ⟨s1, -, rfl⟩ := done
  · simp [State.Succeeded] at success
  · exact State.finish_succeeded success

/-- Settles O37: neither the block's answer nor a host line writes the build parameter (R231). -/
theorem stepKeepsTheBuild : Obligations.StepKeepsTheBuild := by
  intro s t h
  obtain ⟨-, l, rest, -, ⟨q, c, rfl⟩ | ⟨s1, done, rfl⟩⟩ := step_done h
  · rfl
  · exact done.config

end Sys2Proof.Machine
end

section
/-! The obligations of 20_memory.md on host memory: PTE reads after writes, the byte order, the slot addresses,
and a host memory read. -/

namespace Sys2Proof.Machine

/-! ## The byte order (R41) -/

/-- Byte `k` of a little-endian write is digit `k` of the value in base 256. -/
theorem Memory.readByte_writeLE {m : Memory} (rising : m.Rising) (a n v : Nat) {k : Nat} (inside : k < n) :
    (m.writeLE a n v).readByte (a + k) = BitVec.ofNat 8 (v / 256 ^ k) := by
  induction n generalizing m a v k with
  | zero => omega
  | succ n ih =>
    rw [Memory.writeLE]
    cases k with
    | zero =>
      rw [Memory.readByte_writeLE_other _ _ _ _ _ (by omega), Nat.add_zero,
        Memory.readByte_writeByte_same _ _ _ rising, Nat.pow_zero, Nat.div_one]
    | succ k =>
      rw [show a + (k + 1) = a + 1 + k by omega, ih (Memory.rising_writeByte m a _ rising) (a + 1) (v / 256) (by omega),
        Nat.div_div_eq_div_mul, Nat.pow_succ']

/-- Digit `k` in base 256 of a little-endian read is the byte at offset `k`. -/
theorem Memory.readLE_digit (m : Memory) (a n : Nat) {k : Nat} (inside : k < n) :
    m.readLE a n / 256 ^ k % 256 = (m.readByte (a + k)).toNat := by
  induction n generalizing a k with
  | zero => omega
  | succ n ih =>
    have byte : (m.readByte a).toNat < 256 := (m.readByte a).isLt
    rw [Memory.readLE]
    cases k with
    | zero =>
      simp only [Nat.pow_zero, Nat.div_one, Nat.add_zero]
      omega
    | succ k =>
      rw [Nat.pow_succ', ← Nat.div_div_eq_div_mul, show a + (k + 1) = a + 1 + k by omega,
        ← ih (a + 1) (by omega)]
      congr 2
      omega

/-- Bits `8k+7:8k` of a word are its digit `k` in base 256. -/
theorem byteSlice_toNat (w : Word) (k : Nat) : (w.extractLsb' (8 * k) 8).toNat = w.toNat / 256 ^ k % 256 := by
  have weight : 2 ^ (8 * k) = 256 ^ k := Nat.pow_mul 2 8 k
  rw [slice_toNat, weight, show 2 ^ 8 = 256 from rfl]

/-- Eight bytes read as a word are its bytes, the lowest first. -/
theorem byteSlice_readLE (m : Memory) (a : Nat) {k : Nat} (inside : k < 8) :
    (BitVec.ofNat 64 (m.readLE a 8)).extractLsb' (8 * k) 8 = m.readByte (a + k) := by
  have small : m.readLE a 8 < 2 ^ 64 := Memory.readLE_lt m a 8
  apply BitVec.eq_of_toNat_eq
  rw [byteSlice_toNat, BitVec.toNat_ofNat, Nat.mod_eq_of_lt small, Memory.readLE_digit m a 8 inside]

/-- Settles O41: a slot is read and written byte by byte, the lowest byte first, and a write reaches its eight
bytes alone (R41; log entry 10). -/
theorem ptesAreLittleEndian : Obligations.PtesAreLittleEndian := by
  intro m a wf _
  refine ⟨fun e k inside => ?written, fun k inside => byteSlice_readLE m a.toNat inside,
    fun e x outside => Memory.readByte_writeLE_other _ _ _ _ _ outside⟩
  rw [Memory.writePTE, Memory.readByte_writeLE wf.1 a.toNat 8 e.toNat inside]
  apply BitVec.eq_of_toNat_eq
  rw [byteSlice_toNat, BitVec.toNat_ofNat]

/-! ## Slots (R45, R50) -/

/-- Settles O40: the write is read back at its own slot, and a different entry has a different slot (R45). -/
theorem pteReadsReturnTheLastWrite : Obligations.PteReadsReturnTheLastWrite := by
  intro m n n' i i' e wf
  by_cases same : n' = n ∧ i' = i
  · obtain ⟨rfl, rfl⟩ := same
    rw [if_pos ⟨rfl, rfl⟩, Memory.readPTE_writePTE_same _ _ _ wf.1]
  · rw [if_neg same, Memory.readPTE_writePTE_other _ _ _ _ _ _ same]

/-- Settles O42: the address formula gives the alignment, and with an index below 512 the frame and the entry back
(R50, R42). -/
theorem slotAddressesFollowTheLayout : Obligations.SlotAddressesFollowTheLayout := by
  intro n n' i i'
  have address : (slot n i).toNat = n.toNat * 4096 + 8 * i.toNat := Memory.slot_toNat n i
  refine ⟨address, by omega, slot_byte_inFrame n i _ le_rfl (by omega), fun same => ?_⟩
  exact Memory.slot_inj n n' i i' (congrArg BitVec.toNat same)

/-! ## A host memory read (R11) -/

/-- A value depends on the bindings alone, so taking the line off the program changes no operand. -/
@[simp] theorem State.operand_withProgram (s : State) (rest : List Line) (o : Operand) :
    (s.withProgram rest).operand o = s.operand o := by
  cases o <;> rfl

section MemReadLine

variable {s : State} {d : ResultName} {base index : Operand} {x i : Word} {rest : List Line}
  (running : s.status = .running) (program : s.program = .memRead d base index :: rest)
  (atBase : s.operand base = .ok x) (atIndex : s.operand index = .ok i)

include running program atBase atIndex

theorem step_memRead_inside (inside : x.toNat + 8 * i.toNat + 8 ≤ 2 ^ 56) :
    step s = .next ((s.withProgram rest).bind d
      (.word (BitVec.ofNat 64 (s.mem.readLE (x.toNat + 8 * i.toNat) 8)))).finish := by
  rw [step_of_line running program]
  simp only [runLine, hostMemRead, State.operand_withProgram, atBase, atIndex, Config.physBytes, Config.paBits,
    if_pos inside, proceed, State.withProgram_mem]

theorem step_memRead_outside (outside : 2 ^ 56 < x.toNat + 8 * i.toNat + 8) :
    step s = .fault (.outsidePhysicalMemory (x.toNat + 8 * i.toNat)) := by
  rw [step_of_line running program]
  simp only [runLine, hostMemRead, State.operand_withProgram, atBase, atIndex, Config.physBytes, Config.paBits,
    if_neg (Nat.not_le.mpr outside), proceed]

end MemReadLine

/-- Settles O43: the word bound is the little-endian read of the eight bytes, and binding writes nothing but the
name; past the physical space the line stops (R11, R32, R41; log entries 10 and 14). -/
theorem memReadBindsTheWordAtItsAddress : Obligations.MemReadBindsTheWordAtItsAddress := by
  intro s d base index x i rest running program atBase atIndex
  refine ⟨fun inside => ?_, step_memRead_outside running program atBase atIndex⟩
  refine ⟨_, BitVec.ofNat 64 (s.mem.readLE (x.toNat + 8 * i.toNat) 8),
    step_memRead_inside running program atBase atIndex inside, ?bound, fun k small => byteSlice_readLE _ _ small,
    fun z other => ?others, rfl, rfl, rfl, rfl⟩
  case bound => rw [State.lookup_finish, State.lookup_bind_same]
  case others =>
    rw [State.lookup_finish, State.lookup_bind_other _ _ _ _ other]
    rfl

end Sys2Proof.Machine
end

section
/-! The invariant of the host context (20_memory.md R60): it holds after reset, every step keeps it, and it
gives the containment that R60 states. A table's soundness rests on what the walk steps from its own frames
enter, and no line changes that but a map of the table itself. -/

namespace Sys2Proof.Machine

/-! ## Soundness rests on the entries of owned nodes -/

/-- A tree stays one in every memory where walk steps from its nodes above the leaf level enter the same nodes. -/
theorem Table.Tree.of_enter {m m' : Memory} {tb : Table} {depth : PPN → Nat} (tree : tb.Tree m depth)
    (same : ∀ n ∈ tb.owned, depth n < 2 → ∀ i, enter m' n i = enter m n i) : tb.Tree m' depth where
  rootOwned := tree.rootOwned
  rootDepth := tree.rootDepth
  child n own above i c entry := tree.child n own above i c (same n own above i ▸ entry)
  unique n own n' own' above above' i i' c entry entry' :=
    tree.unique n own n' own' above above' i i' c (same n own above i ▸ entry) (same n' own' above' i' ▸ entry')

/-- A table stays sound in every memory where walk steps from its frames enter the same nodes; a view has none. -/
theorem Table.Sound.of_enter {m m' : Memory} {tb : Table} (sound : tb.Sound m)
    (same : ∀ n ∈ tb.owned, ∀ i, enter m' n i = enter m n i) : tb.Sound m' := by
  unfold Table.Sound at sound ⊢
  cases kind : tb.kind with
  | owner =>
    rw [kind] at sound
    obtain ⟨depth, tree⟩ := sound
    exact ⟨depth, tree.of_enter fun n own _ => same n own⟩
  | view => rwa [kind] at sound

theorem Table.Tree.sound {m : Memory} {tb : Table} {depth : PPN → Nat} (tree : tb.Tree m depth)
    (owner : tb.kind = .owner) : tb.Sound m := by
  unfold Table.Sound
  rw [owner]
  exact ⟨depth, tree⟩

/-- A write to an entry of a leaf node changes no walk step from a node above the leaf level. -/
theorem Table.Tree.write_leaf {m : Memory} {tb : Table} {depth : PPN → Nat} (tree : tb.Tree m depth) {n : PPN}
    (leaf : depth n = 2) (i : LevelIndex) (e : PTE) : tb.Tree (m.writePTE (slot n i) e) depth :=
  tree.of_enter fun n' _ above i' =>
    enter_writePTE_other m n n' i i' e fun ⟨same, _⟩ => by subst same; omega

/-- A host context is sound when another with the same memory and tables is. -/
theorem State.Sound.of_context {s t : State} (sound : s.Sound) (mem : t.mem = s.mem) (tables : t.tables = s.tables) :
    t.Sound where
  memory := mem ▸ sound.memory
  table k tb table := by
    rw [mem]
    exact sound.table k tb (by rwa [State.table?, ← tables])
  frames := by
    rw [State.ownedFrames, tables]
    exact sound.frames

/-! ## The host lines one by one -/

/-- A fresh frame is no node of a live table, so zeroing it leaves every table sound; alone it is a tree. -/
theorem State.Sound.construct {s t : State} (sound : s.Sound) {f : PPN} (fresh : f ∉ s.ownedFrames)
    (mem : t.mem = s.mem.zeroFrame f)
    (tables : t.tables = s.tables ++ [some { root := f, owned := [f], kind := .owner }]) : t.Sound where
  memory := mem ▸ Memory.wf_zeroFrame _ f sound.memory
  table k tb table := by
    rw [mem]
    obtain ⟨-, new⟩ | old := append_table_inv tables table
    · obtain rfl := Option.some.inj new
      refine Table.Tree.sound (depth := fun _ => 0) ⟨List.mem_singleton_self f, rfl, ?_, ?_⟩ rfl
      · rintro n own - i c entry
        obtain rfl := List.mem_singleton.mp own
        rw [enter_zeroFrame_inside] at entry
        cases entry
      · rintro n own - - - - i - c entry -
        obtain rfl := List.mem_singleton.mp own
        rw [enter_zeroFrame_inside] at entry
        cases entry
    · exact (sound.table k tb old).of_enter fun n own i =>
        enter_zeroFrame_other _ _ _ _ fun same => fresh (same ▸ owned_sub old n own)
  frames := by
    rw [State.ownedFrames, tables, List.flatMap_append]
    refine List.nodup_append.mpr ⟨sound.frames, List.nodup_singleton f, ?_⟩
    rintro a own b new rfl
    exact fresh (List.mem_singleton.mp new ▸ own)

theorem State.Sound.view {s t : State} (sound : s.Sound) {root : PPN} (mem : t.mem = s.mem)
    (tables : t.tables = s.tables ++ [some { root := root, owned := [], kind := .view }]) : t.Sound where
  memory := mem ▸ sound.memory
  table k tb table := by
    rw [mem]
    obtain ⟨-, new⟩ | old := append_table_inv tables table
    · obtain rfl := Option.some.inj new
      rfl
    · exact sound.table k tb old
  frames := by
    rw [State.ownedFrames, tables, List.flatMap_append]
    simpa [ownedOf, State.ownedFrames] using sound.frames

theorem State.Sound.destroy {s t : State} (sound : s.Sound) {k : Nat} {tb : Table} (table : s.table? k = some tb)
    (mem : t.mem = s.mem) (tables : t.tables = s.tables.set k none) : t.Sound where
  memory := mem ▸ sound.memory
  table k' tb' table' := by
    rw [mem]
    by_cases same : k' = k
    · subst same
      rw [table_set_same table none t tables] at table'
      cases table'
    · exact sound.table k' tb' (table_set_other same none t tables ▸ table')
  frames := by
    rw [State.ownedFrames, tables]
    exact nodup_drop sound.frames table

/-- A memory in canonical form, in which walk steps from owned frames enter the same nodes, keeps a context sound. -/
theorem State.Sound.of_enter {s t : State} (sound : s.Sound) (wf : t.mem.wf) (tables : t.tables = s.tables)
    (same : ∀ n ∈ s.ownedFrames, ∀ i, enter t.mem n i = enter s.mem n i) : t.Sound where
  memory := wf
  table k tb table := by
    have old : s.table? k = some tb := by rwa [State.table?, ← tables]
    exact (sound.table k tb old).of_enter fun n own => same n (owned_sub old n own)
  frames := by
    rw [State.ownedFrames, tables]
    exact sound.frames

/-- A write to an entry of a leaf node of an owning table keeps a context sound: no other table has that node. -/
theorem State.Sound.write_leaf {s t : State} (sound : s.Sound) {k : Nat} {tb : Table} {depth : PPN → Nat} {n : PPN}
    (table : s.table? k = some tb) (owner : tb.kind = .owner) (tree : tb.Tree s.mem depth) (own : n ∈ tb.owned)
    (leaf : depth n = 2) {i : LevelIndex} {e : PTE} (mem : t.mem = s.mem.writePTE (slot n i) e)
    (tables : t.tables = s.tables) : t.Sound where
  memory := mem ▸ Memory.wf_writePTE _ _ _ _ sound.memory
  table k' tb' table' := by
    have old : s.table? k' = some tb' := by rwa [State.table?, ← tables]
    rw [mem]
    by_cases same : k' = k
    · subst same
      obtain rfl := Option.some.inj (table.symm.trans old)
      exact (tree.write_leaf leaf i e).sound owner
    · exact (sound.table k' tb' old).of_enter fun n' own' i' => enter_writePTE_other _ _ _ _ _ _ fun hit =>
        disjoint_tables sound.frames table old same own (hit.1 ▸ own')
  frames := by
    rw [State.ownedFrames, tables]
    exact sound.frames

/-- No frame of another table is among those a walked table owns after its creating walk. -/
theorem WalkKeeps.not_owned_of_other {s : State} {k k' : Nat} {tb tb' : Table} {w : Walk} {depth : PPN → Nat}
    (keeps : WalkKeeps s.mem s.ownedFrames tb w depth) (sound : s.Sound) (table : s.table? k = some tb)
    (table' : s.table? k' = some tb') (other : k' ≠ k) {n : PPN} (own : n ∈ tb'.owned) :
    n ∉ tb.owned ++ w.added := by
  intro walked
  obtain old | new := List.mem_append.mp walked
  · exact disjoint_tables sound.frames table table' other old own
  · exact keeps.fresh n new (owned_sub table' n own)

/-- A creating walk keeps a context sound: the walked table is a tree of its old and its new nodes, and the
frames of every other table keep their bytes. -/
theorem State.Sound.walk {s t : State} (sound : s.Sound) {k : Nat} {tb : Table} {w : Walk} {depth : PPN → Nat}
    (table : s.table? k = some tb) (owner : tb.kind = .owner) (keeps : WalkKeeps s.mem s.ownedFrames tb w depth)
    (mem : t.mem = w.mem) (tables : t.tables = s.tables.set k (some { tb with owned := tb.owned ++ w.added })) :
    t.Sound where
  memory := mem ▸ keeps.wf
  table k' tb' table' := by
    rw [mem]
    by_cases same : k' = k
    · subst same
      obtain rfl := Option.some.inj ((table_set_same table _ t tables).symm.trans table')
      exact keeps.tree.sound owner
    · have old : s.table? k' = some tb' := by rwa [table_set_other same _ t tables] at table'
      exact (sound.table k' tb' old).of_enter fun n own i =>
        enter_of_readPTE (readPTE_of_bytes keeps.bytes (keeps.not_owned_of_other sound table old same own) i)
  frames := by
    rw [State.ownedFrames, tables]
    exact nodup_grow sound.frames table keeps.nodup keeps.fresh rfl

/-! ## The processor's A and D bits (R236) -/

theorem getLsbD_withStatusBits (e : PTE) (accessed dirty : Bool) (i : Nat) :
    (withStatusBits e accessed dirty).getLsbD i =
      if i = 6 then accessed else if i = 7 then dirty else e.getLsbD i := by
  have a : (0x40#64).getLsbD i = decide (6 = i) := BitVec.getLsbD_twoPow 6 i
  have d : (0x80#64).getLsbD i = decide (7 = i) := BitVec.getLsbD_twoPow 7 i
  have both : (0xC0#64).getLsbD i = (decide (6 = i) || decide (7 = i)) := by
    rw [← a, ← d, ← BitVec.getLsbD_or]
    rfl
  have aBit : (if accessed then 0x40#64 else 0#64).getLsbD i = (accessed && decide (6 = i)) := by
    cases accessed <;> simp [a]
  have dBit : (if dirty then 0x80#64 else 0#64).getLsbD i = (dirty && decide (7 = i)) := by
    cases dirty <;> simp [d]
  rw [withStatusBits, BitVec.getLsbD_or, BitVec.getLsbD_or, BitVec.getLsbD_and, BitVec.getLsbD_not, both, aBit, dBit]
  by_cases wide : i < 64
  · by_cases six : i = 6
    · simp [six]
    · by_cases seven : i = 7
      · simp [seven]
      · simp [six, seven, wide, Ne.symm six, Ne.symm seven]
  · have above : e.getLsbD i = false := BitVec.getLsbD_of_ge e i (by omega)
    simp [above, show 6 ≠ i by omega, show 7 ≠ i by omega, show i ≠ 6 by omega, show i ≠ 7 by omega]

/-- Neither Valid nor the page number of an entry is among the two bits. -/
theorem pteIsValid_withStatusBits (e : PTE) (accessed dirty : Bool) :
    pteIsValid (withStatusBits e accessed dirty) = pteIsValid e := by
  rw [pteIsValid, getLsbD_withStatusBits, if_neg (by decide), if_neg (by decide), pteIsValid]

theorem ptePpn_withStatusBits (e : PTE) (accessed dirty : Bool) :
    ptePpn (withStatusBits e accessed dirty) = ptePpn e := by
  apply BitVec.eq_of_getLsbD_eq
  intro i small
  rw [ptePpn, ptePpn, BitVec.getLsbD_extractLsb', BitVec.getLsbD_extractLsb', getLsbD_withStatusBits,
    if_neg (by omega), if_neg (by omega)]

/-- A status write changes no walk step at all, whatever node its slot is in: a view may reach an intermediate
entry of another table as the leaf of a page. -/
theorem enter_writePTE_withStatusBits {m : Memory} (rising : m.Rising) (n n' : PPN) (i i' : LevelIndex)
    (accessed dirty : Bool) :
    enter (m.writePTE (slot n i) (withStatusBits (m.readPTE (slot n i)) accessed dirty)) n' i' = enter m n' i' := by
  by_cases hit : n' = n ∧ i' = i
  · obtain ⟨rfl, rfl⟩ := hit
    rw [enter_writePTE_same _ _ _ _ rising, pteIsValid_withStatusBits, ptePpn_withStatusBits, enter]
  · exact enter_writePTE_other _ _ _ _ _ _ hit

/-! ## Every line, and every step -/

/-- Whatever a line that goes on did, it keeps the host context sound. -/
theorem LineDone.sound {s s1 : State} {l : Line} (done : LineDone s l s1) (sound : s.Sound) : s1.Sound := by
  cases done with
  | answered | bound | invalidated | untouched => exact sound.of_context rfl rfl
  | constructed taken => exact sound.construct (takeFrame_some taken).1 rfl rfl
  | viewed token => exact sound.view rfl rfl
  | destroyed table => exact sound.destroy table rfl rfl
  | @mapped k _ _ _ tb _ w table owner walk =>
    obtain ⟨depth, tree⟩ := sound.tree table owner
    obtain ⟨depth', n1, n2, keeps, rfl, -, -, own, leaf, -⟩ := findCreate_keeps sound.memory tree (owned_sub table) walk
    have walked : State.Sound { s with
        mem := w.mem, tables := s.tables.set k (some { tb with owned := tb.owned ++ w.added }) } :=
      sound.walk table owner keeps rfl rfl
    exact walked.write_leaf (table_set_same table _ _ rfl) owner keeps.tree own leaf rfl rfl
  | unmapped table owner found =>
    obtain ⟨depth, tree⟩ := sound.tree table owner
    obtain ⟨n1, n2, h1, h2, rfl⟩ := find_some found
    obtain ⟨-, own, leaf⟩ := tree.path h1 h2
    exact sound.write_leaf table owner tree own leaf rfl rfl
  | statusWritten found =>
    obtain ⟨n1, n2, -, -, rfl⟩ := find_some found
    exact sound.of_enter (Memory.wf_writePTE _ _ _ _ sound.memory) rfl fun n _ i =>
      enter_writePTE_withStatusBits sound.memory.1 _ n _ i _ _

/-- Settles O46: a faulted response leaves the context as it was, and what a line does keeps it sound, line by
line (R60, I16). -/
theorem stepKeepsTheContextSound : Obligations.StepKeepsTheContextSound := by
  intro s t sound h
  obtain ⟨-, l, rest, -, ⟨q, c, rfl⟩ | ⟨s1, done, rfl⟩⟩ := step_done h
  · exact sound.of_context rfl rfl
  · have taken : (s.withProgram rest).Sound := sound.of_context rfl rfl
    exact (done.sound taken).of_context rfl rfl

/-- Settles O45: the memory after reset is canonical, and no table has been made (log entries 4 and 9). -/
theorem resetIsSound : Obligations.ResetIsSound where
  memory := Memory.wf_reset
  table _ _ table := absurd (table_lt table) (Nat.not_lt_zero _)
  frames := List.nodup_nil

/-- Settles O47: in the tree of an owning table the root is an owned node at depth 0, so its valid entries name
owned nodes at depth 1, and the valid entries of those name owned nodes (R60). -/
theorem soundTablesOwnTheirNodes : Obligations.SoundTablesOwnTheirNodes := by
  intro s sound k _ table owner i0 n1 entry
  obtain ⟨depth, tree⟩ := sound.tree table owner
  have root := tree.rootDepth
  obtain ⟨own, -⟩ := tree.child _ tree.rootOwned (by omega) i0 n1 entry
  exact ⟨own, fun i1 n2 entry' => (tree.path entry entry').2.1⟩

end Sys2Proof.Machine
end

section
/-! The obligations of 20_memory.md on map: what a page of the walked table translates to after a creating walk,
when the walk finds the frames it needs, and then each statement from the walk and the one leaf write after it. -/

namespace Sys2Proof.Machine

/-! ## Translations in a tree -/

theorem translation_of_missing0 {m : Memory} {root : PPN} {vpn : VPN} (missing : enter m root (vpnIndex0 vpn) = none) :
    translation m root vpn = none := by
  rw [translation_eq, missing]

theorem translation_of_missing1 {m : Memory} {root n1 : PPN} {vpn : VPN}
    (entry : enter m root (vpnIndex0 vpn) = some n1) (missing : enter m n1 (vpnIndex1 vpn) = none) :
    translation m root vpn = none := by
  rw [translation_eq, entry]
  simp only [missing]

/-- A page number is given by its three indices (R153). -/
theorem vpn_eq_of_indices {v v' : VPN} (h0 : vpnIndex0 v = vpnIndex0 v') (h1 : vpnIndex1 v = vpnIndex1 v')
    (h2 : vpnIndex2 v = vpnIndex2 v') : v = v' := by
  rw [← vpnIndices_append v, h0, h1, h2, vpnIndices_append]

/-- The pages of a tree translate alike in every memory with the same entries in its nodes. -/
theorem Table.Tree.translation_congr {m m' : Memory} {tb : Table} {depth : PPN → Nat} (tree : tb.Tree m depth)
    (same : ∀ n ∈ tb.owned, ∀ i, m'.readPTE (slot n i) = m.readPTE (slot n i)) (vpn : VPN) :
    translation m' tb.root vpn = translation m tb.root vpn := by
  have root := tree.rootDepth
  have sameRoot := enter_of_readPTE (same _ tree.rootOwned (vpnIndex0 vpn))
  cases h1 : enter m tb.root (vpnIndex0 vpn) with
  | none => rw [translation_of_missing0 h1, translation_of_missing0 (sameRoot.trans h1)]
  | some n1 =>
    obtain ⟨own1, -⟩ := tree.child _ tree.rootOwned (by omega) _ _ h1
    have sameNode := enter_of_readPTE (same n1 own1 (vpnIndex1 vpn))
    cases h2 : enter m n1 (vpnIndex1 vpn) with
    | none => rw [translation_of_missing1 h1 h2, translation_of_missing1 (sameRoot.trans h1) (sameNode.trans h2)]
    | some n2 =>
      obtain ⟨-, own2, -⟩ := tree.path h1 h2
      rw [translation_of_enter h1 h2, translation_of_enter (sameRoot.trans h1) (sameNode.trans h2), same n2 own2]

/-- In a tree two pages with one leaf slot are one page: its nodes have one parent entry each. -/
theorem Table.Tree.page_of_leaf {m : Memory} {tb : Table} {depth : PPN → Nat} (tree : tb.Tree m depth)
    {vpn vpn' : VPN} {n1 n1' n2 : PPN} (h1 : enter m tb.root (vpnIndex0 vpn) = some n1)
    (h2 : enter m n1 (vpnIndex1 vpn) = some n2) (h1' : enter m tb.root (vpnIndex0 vpn') = some n1')
    (h2' : enter m n1' (vpnIndex1 vpn') = some n2) (entry : vpnIndex2 vpn = vpnIndex2 vpn') : vpn = vpn' := by
  have root := tree.rootDepth
  obtain ⟨⟨own1, d1⟩, -⟩ := tree.path h1 h2
  obtain ⟨⟨own1', d1'⟩, -⟩ := tree.path h1' h2'
  obtain ⟨rfl, i1⟩ := tree.unique n1 own1 n1' own1' (by omega) (by omega) _ _ _ h2 h2'
  obtain ⟨-, i0⟩ := tree.unique _ tree.rootOwned _ tree.rootOwned (by omega) (by omega) _ _ _ h1 h1'
  exact vpn_eq_of_indices i0 i1 entry

/-- A write to the leaf slot of one page of a tree leaves the translation of every other page. -/
theorem Table.Tree.translation_write_other_leaf {m : Memory} {tb : Table} {depth : PPN → Nat}
    (tree : tb.Tree m depth) {vpn vpn' : VPN} {leaf : PA} (found : find m tb.root vpn = some leaf)
    (other : vpn' ≠ vpn) (e : PTE) : translation (m.writePTE leaf e) tb.root vpn' = translation m tb.root vpn' := by
  obtain ⟨n1, n2, h1, h2, rfl⟩ := find_some found
  obtain ⟨-, -, d2⟩ := tree.path h1 h2
  have root := tree.rootDepth
  have same : ∀ n, depth n < 2 → ∀ i, enter (m.writePTE (slot n2 (vpnIndex2 vpn)) e) n i = enter m n i :=
    fun n above i => enter_writePTE_other _ _ _ _ _ _ fun ⟨hit, _⟩ => by subst hit; omega
  have sameRoot := same tb.root (by omega) (vpnIndex0 vpn')
  cases h1' : enter m tb.root (vpnIndex0 vpn') with
  | none => rw [translation_of_missing0 h1', translation_of_missing0 (sameRoot.trans h1')]
  | some n1' =>
    obtain ⟨own1', d1'⟩ := tree.child _ tree.rootOwned (by omega) _ _ h1'
    have sameNode := same n1' (by omega) (vpnIndex1 vpn')
    cases h2' : enter m n1' (vpnIndex1 vpn') with
    | none =>
      rw [translation_of_missing1 h1' h2', translation_of_missing1 (sameRoot.trans h1') (sameNode.trans h2')]
    | some n2' =>
      rw [translation_of_enter h1' h2', translation_of_enter (sameRoot.trans h1') (sameNode.trans h2'),
        Memory.readPTE_writePTE_other]
      rintro ⟨rfl, entry⟩
      exact other (tree.page_of_leaf h1' h2' h1 h2 entry)

/-! ## What a creating walk does to the pages of its table -/

theorem WalkKeeps.enter_cases {m0 : Memory} {taken : List PPN} {tb : Table} {w : Walk} {depth : PPN → Nat}
    (keeps : WalkKeeps m0 taken tb w depth) {n : PPN} (own : n ∈ tb.owned) (i : LevelIndex) :
    enter w.mem n i = enter m0 n i ∨ (enter m0 n i = none ∧ ∃ c ∈ w.added, enter w.mem n i = some c) := by
  obtain same | ⟨-, missing, new⟩ := keeps.keep n own i
  · exact .inl (enter_of_readPTE same)
  · exact .inr ⟨missing, new⟩

/-- A page whose path goes through a node the walk added translates to nothing or to an empty entry. -/
theorem WalkKeeps.translation_of_added {m0 : Memory} {taken : List PPN} {tb : Table} {w : Walk} {depth : PPN → Nat}
    (keeps : WalkKeeps m0 taken tb w depth) {vpn : VPN} {n1 n2 : PPN}
    (h1 : enter w.mem tb.root (vpnIndex0 vpn) = some n1) (h2 : enter w.mem n1 (vpnIndex1 vpn) = some n2)
    (added : n2 ∈ w.added) : translation w.mem tb.root vpn = some 0#64 := by
  obtain ⟨-, -, d2⟩ := keeps.tree.path h1 h2
  rw [translation_of_enter h1 h2, keeps.zero n2 added d2.ge]

/-- A creating walk leaves the translation of every page of its table, but that a page whose leaf node it created
turns from absent to an empty entry. -/
theorem WalkKeeps.translation_cases {m0 : Memory} {taken : List PPN} {tb : Table} {w : Walk} {depth depth0 : PPN → Nat}
    (keeps : WalkKeeps m0 taken tb w depth) (tree : tb.Tree m0 depth0) (vpn : VPN) :
    translation w.mem tb.root vpn = translation m0 tb.root vpn ∨
      (translation m0 tb.root vpn = none ∧ translation w.mem tb.root vpn = some 0#64) := by
  have root := tree.rootDepth
  obtain sameRoot | ⟨missing, n1, added1, h1⟩ := keeps.enter_cases tree.rootOwned (vpnIndex0 vpn)
  case inr =>
    have rootAfter := keeps.tree.rootDepth
    obtain ⟨-, d1⟩ := keeps.tree.child _ keeps.tree.rootOwned (by omega) _ _ h1
    cases h2 : enter w.mem n1 (vpnIndex1 vpn) with
    | none => exact .inl (by rw [translation_of_missing1 h1 h2, translation_of_missing0 missing])
    | some n2 =>
      have added2 := keeps.down n1 added1 (by omega) _ _ h2
      exact .inr ⟨translation_of_missing0 missing, keeps.translation_of_added h1 h2 added2⟩
  cases h1 : enter m0 tb.root (vpnIndex0 vpn) with
  | none => exact .inl (by rw [translation_of_missing0 h1, translation_of_missing0 (sameRoot.trans h1)])
  | some n1 =>
    obtain ⟨own1, -⟩ := tree.child _ tree.rootOwned (by omega) _ _ h1
    obtain sameNode | ⟨missing, n2, added2, h2⟩ := keeps.enter_cases own1 (vpnIndex1 vpn)
    case inr =>
      exact .inr ⟨translation_of_missing1 h1 missing, keeps.translation_of_added (sameRoot.trans h1) h2 added2⟩
    cases h2 : enter m0 n1 (vpnIndex1 vpn) with
    | none =>
      left
      rw [translation_of_missing1 h1 h2, translation_of_missing1 (sameRoot.trans h1) (sameNode.trans h2)]
    | some n2 =>
      obtain ⟨-, own2, -⟩ := tree.path h1 h2
      obtain ⟨-, -, d2⟩ := keeps.tree.path (sameRoot.trans h1) (sameNode.trans h2)
      obtain sameLeaf | ⟨above, -⟩ := keeps.keep n2 own2 (vpnIndex2 vpn)
      · left
        rw [translation_of_enter h1 h2, translation_of_enter (sameRoot.trans h1) (sameNode.trans h2), sameLeaf]
      · omega

/-! ## When a creating walk finds the frames it needs -/

theorem findCreate_eq_none {taken : List PPN} {root : PPN} {vpn : VPN} {w : Walk}
    (h : findCreate taken root vpn w = none) :
    enterCreate taken root (vpnIndex0 vpn) w = none ∨
      ∃ n1 w1, enterCreate taken root (vpnIndex0 vpn) w = some (n1, w1) ∧
        enterCreate taken n1 (vpnIndex1 vpn) w1 = none := by
  simp only [findCreate] at h
  split at h
  · exact .inl ‹_›
  · rename_i n1 w1 h1
    split at h
    · exact .inr ⟨n1, w1, h1, ‹_›⟩
    · cases h

/-- The allocator offers, for each node missing on the page's path, a frame of its own that is not among those
taken (R61; log entry 8). -/
def FramesSuffice (taken : List PPN) (m : Memory) (frames : List PPN) (root : PPN) (vpn : VPN) : Prop :=
  ∃ new : List PPN, new.Nodup ∧ new.length = missingNodes m root vpn ∧ ∀ f ∈ new, f ∈ frames ∧ f ∉ taken

/-- When the allocator has handed out `f` and has no other unowned frame left, `f` was the only one. -/
theorem eq_of_exhausted_after {taken frames left : List PPN} {f : PPN} (took : takeFrame taken frames = some (f, left))
    (exhausted : ∀ x ∈ left, x ∈ taken ++ [f]) {x : PPN} (offered : x ∈ frames) (unowned : x ∉ taken) : x = f := by
  obtain ⟨-, skipped, rfl, owned⟩ := takeFrame_some took
  obtain skip | rest := List.mem_append.mp offered
  · exact absurd (owned x skip) unowned
  · obtain rfl | later := List.mem_cons.mp rest
    · rfl
    · simpa [unowned] using exhausted x later

/-- With a frame for each missing node a creating walk does not fail: at its missing step the allocator would be
exhausted, with no frame of the list left, or with the one that an earlier step took. -/
theorem findCreate_ne_none {taken frames : List PPN} {m : Memory} {root : PPN} {vpn : VPN}
    (suffice : FramesSuffice taken m frames root vpn) :
    findCreate taken root vpn { mem := m, frames := frames, added := [] } ≠ none := by
  intro failed
  obtain ⟨new, nodup, count, free⟩ := suffice
  have noneFree : (∀ x ∈ frames, x ∈ taken ++ []) → new = [] := fun exhausted =>
    List.eq_nil_iff_forall_not_mem.mpr fun f inNew =>
      (free f inNew).2 (by simpa using exhausted f (free f inNew).1)
  unfold missingNodes at count
  obtain atRoot | ⟨n1, w1, entered, below⟩ := findCreate_eq_none failed
  · obtain ⟨missing, exhausted⟩ := enterCreate_none.mp atRoot
    simp [missing, noneFree exhausted] at count
  · obtain ⟨missing1, exhausted⟩ := enterCreate_none.mp below
    obtain ⟨entry, rfl⟩ | ⟨missing, -, took, -, added⟩ := enterCreate_some entered
    · simp [entry, missing1, noneFree exhausted] at count
    · simp only [missing] at count
      obtain ⟨f, g, rfl⟩ := List.length_eq_two.mp count
      have only : ∀ x ∈ [f, g], x = n1 := fun x inNew =>
        eq_of_exhausted_after took (by simpa [added] using exhausted) (free x inNew).1 (by simpa using (free x inNew).2)
      have same : f = g := (only f (by simp)).trans (only g (by simp)).symm
      simp [same] at nodup

/-- A creating walk that goes on found a frame for each missing node: the ones it added. -/
theorem framesSuffice_of_findCreate {s : State} {tb : Table} {depth : PPN → Nat} (wf : s.mem.wf)
    (tree : tb.Tree s.mem depth) (owned : ∀ f ∈ tb.owned, f ∈ s.ownedFrames) {vpn : VPN} {leaf : PA} {w : Walk}
    (walk : findCreate s.ownedFrames tb.root vpn { mem := s.mem, frames := s.frames, added := [] } = some (leaf, w)) :
    w.added.Nodup ∧ w.added.length = missingNodes s.mem tb.root vpn ∧
      ∀ f ∈ w.added, f ∈ s.frames ∧ f ∉ s.ownedFrames := by
  obtain ⟨_, _, _, keeps, -⟩ := findCreate_keeps wf tree owned walk
  refine ⟨keeps.nodup, findCreate_added_length tree owned walk, fun f added => ⟨?offered, keeps.fresh f added⟩⟩
  obtain before | offered := findCreate_added_offered walk f added
  · cases before
  · exact offered

/-! ## A map line of an owning table, case by case (R54) -/

section MapLine

variable {s : State} {k : Nat} {tb : Table} {vpn : VPN} {ppn : PPN} {flags : Flags} {rest : List Line}
  (running : s.status = .running) (program : s.program = .map k vpn ppn flags :: rest)
  (table : s.table? k = some tb)

include running program table

theorem step_map_exhausted (owner : tb.kind = .owner)
    (walk : findCreate s.ownedFrames tb.root vpn { mem := s.mem, frames := s.frames, added := [] } = none) :
    step s = .fault (.hostHalt .allocatorExhausted) := by
  rw [step_of_line running program]
  simp [runLine, hostMap, table, owner, walk, proceed]

theorem step_map_validLeaf (owner : tb.kind = .owner) {leaf : PA} {w : Walk}
    (walk : findCreate s.ownedFrames tb.root vpn { mem := s.mem, frames := s.frames, added := [] } = some (leaf, w))
    (valid : pteIsValid (w.mem.readPTE leaf) = true) : step s = .fault (.hostHalt .mapOfValidLeaf) := by
  rw [step_of_line running program]
  simp [runLine, hostMap, table, owner, walk, valid, proceed]

theorem step_map_goesOn (owner : tb.kind = .owner) {leaf : PA} {w : Walk}
    (walk : findCreate s.ownedFrames tb.root vpn { mem := s.mem, frames := s.frames, added := [] } = some (leaf, w))
    (invalid : pteIsValid (w.mem.readPTE leaf) = false) : ∃ t, step s = .next t := by
  rw [step_of_line running program]
  simp [runLine, hostMap, table, owner, walk, invalid, proceed]

end MapLine

/-- What a map that went on from `s` to `t` did: a creating walk to the leaf slot of the page, at entry
`vpnIndex2 vpn` of the leaf node, and one write of the mapped entry there. -/
structure MapDone (s t : State) (k : Nat) (tb : Table) (vpn : VPN) (ppn : PPN) (flags : Flags) (w : Walk)
    (depth : PPN → Nat) (node : PPN) : Prop where
  owner : tb.kind = .owner
  walk : findCreate s.ownedFrames tb.root vpn { mem := s.mem, frames := s.frames, added := [] } =
    some (slot node (vpnIndex2 vpn), w)
  keeps : WalkKeeps s.mem s.ownedFrames tb w depth
  nodeOwned : node ∈ tb.owned ++ w.added
  found : find w.mem tb.root vpn = some (slot node (vpnIndex2 vpn))
  mem : t.mem = w.mem.writePTE (slot node (vpnIndex2 vpn)) (pteNew ppn (withValid flags))
  tables : t.tables = s.tables.set k (some { tb with owned := tb.owned ++ w.added })

/-- In a sound state, a step that goes on with a map line did that. -/
theorem mapDone_of_step {s t : State} {k : Nat} {tb : Table} {vpn : VPN} {ppn : PPN} {flags : Flags}
    {rest : List Line} (sound : s.Sound) (running : s.status = .running)
    (program : s.program = .map k vpn ppn flags :: rest) (table : s.table? k = some tb) (h : step s = .next t) :
    ∃ w depth node, MapDone s t k tb vpn ppn flags w depth node := by
  rw [step_of_line running program] at h
  obtain ⟨_, done, rfl⟩ := proceed_next h
  obtain ⟨tb', leaf, w, table', owner, walk, -, rfl⟩ := hostMap_next done
  obtain rfl : tb = tb' := Option.some.inj (table.symm.trans table')
  obtain ⟨depth0, tree⟩ := sound.tree table owner
  obtain ⟨depth, n1, node, keeps, rfl, -, -, own, -, h1, h2, -⟩ :=
    findCreate_keeps sound.memory tree (owned_sub table) walk
  exact ⟨w, depth, node, owner, walk, keeps, own, find_of_enter h1 h2, rfl, rfl⟩

/-- Settles O50: the walk leaves a tree in which it finds the leaf slot, and the entry written there is what the
page translates to (R54). -/
theorem mapThenTranslateGivesTheLeaf : Obligations.MapThenTranslateGivesTheLeaf := by
  intro s t k tb vpn ppn flags rest sound running program table h
  obtain ⟨w, depth, node, done⟩ := mapDone_of_step sound running program table h
  rw [done.mem]
  exact done.keeps.tree.translation_write_leaf done.keeps.wf.1 done.found (pteNew ppn (withValid flags))

/-- Settles O51: on a complete path the walk changes nothing, so a valid leaf halts the map; it fails exactly
where the frames do not suffice; and where it goes on to a leaf that was not valid, the leaf is still not valid
or in a new, empty node (R53, R54, R208). -/
theorem mapGoesOnOrHalts : Obligations.MapGoesOnOrHalts := by
  intro s k tb vpn ppn flags rest sound running program table owner
  obtain ⟨depth0, tree⟩ := sound.tree table owner
  refine ⟨?validLeaf, fun invalid suffice => ?goesOn, fun short => ?exhausted⟩
  case validLeaf =>
    rintro ⟨e, entry, valid⟩
    obtain ⟨n1, n2, -, -, found, rfl⟩ := translation_some entry
    exact step_map_validLeaf running program table owner (findCreate_of_find found) valid
  case goesOn =>
    obtain ⟨⟨leaf, w⟩, walk⟩ := Option.ne_none_iff_exists'.mp (findCreate_ne_none suffice)
    obtain ⟨depth, n1, n2, keeps, rfl, -, -, -, -, h1, h2, -⟩ :=
      findCreate_keeps sound.memory tree (owned_sub table) walk
    refine step_map_goesOn running program table owner walk ?_
    have after := translation_of_enter h1 h2
    obtain same | ⟨-, empty⟩ := keeps.translation_cases tree vpn
    · exact invalid _ (same.symm.trans after)
    · rw [Option.some.inj (after.symm.trans empty)]
      rfl
  case exhausted =>
    refine step_map_exhausted running program table owner ?_
    by_contra goesOn
    obtain ⟨⟨leaf, w⟩, walk⟩ := Option.ne_none_iff_exists'.mp goesOn
    exact short ⟨w.added, framesSuffice_of_findCreate sound.memory tree (owned_sub table) walk⟩

/-- Settles O52: in the mapped table the leaf write touches one page and the walk turns absent pages to empty ones
at most; the frames of another owning table keep every byte (R60). -/
theorem mapLeavesOtherPagesAlone : Obligations.MapLeavesOtherPagesAlone := by
  intro s t k k' tb tb' vpn vpn' ppn flags rest sound running program table table' owner' other h
  obtain ⟨w, depth, node, done⟩ := mapDone_of_step sound running program table h
  rw [done.mem]
  by_cases same : k' = k
  · subst same
    obtain rfl : tb = tb' := Option.some.inj (table.symm.trans table')
    obtain ⟨depth0, tree⟩ := sound.tree table owner'
    have otherPage : vpn' ≠ vpn := other.resolve_left (absurd rfl)
    have writeKeeps := done.keeps.tree.translation_write_other_leaf done.found otherPage (pteNew ppn (withValid flags))
    obtain walkKeeps | ⟨absent, empty⟩ := done.keeps.translation_cases tree vpn'
    · exact .inl (writeKeeps.trans walkKeeps)
    · exact .inr ⟨rfl, absent, writeKeeps.trans empty⟩
  · obtain ⟨depth0, tree⟩ := sound.tree table' owner'
    refine .inl (tree.translation_congr (fun n own i => ?_) vpn')
    have notWalked := done.keeps.not_owned_of_other sound table table' same own
    have notLeaf : ¬(n = node ∧ i = vpnIndex2 vpn) := fun hit => notWalked (hit.1 ▸ done.nodeOwned)
    rw [Memory.readPTE_writePTE_other _ _ _ _ _ _ notLeaf, readPTE_of_bytes done.keeps.bytes notWalked]

/-- Settles O53: the frames added are those of the creating walk, which are as many as were missing, and only the
entry of the mapped table is replaced in the list of tables (R60). -/
theorem mapOwnsOneFramePerMissingNode : Obligations.MapOwnsOneFramePerMissingNode := by
  intro s t k tb vpn ppn flags rest sound running program table h
  obtain ⟨w, depth, node, done⟩ := mapDone_of_step sound running program table h
  obtain ⟨depth0, tree⟩ := sound.tree table done.owner
  obtain ⟨nodup, count, free⟩ := framesSuffice_of_findCreate sound.memory tree (owned_sub table) done.walk
  exact ⟨w.added, table_set_same table _ t done.tables, count, nodup, free,
    fun k' other => table_set_other other _ t done.tables⟩

/-- The leaf write of a map leaves every byte outside the leaf slot as the walk left it. -/
theorem MapDone.readByte_outside_leaf {s t : State} {k : Nat} {tb : Table} {vpn : VPN} {ppn : PPN} {flags : Flags}
    {w : Walk} {depth : PPN → Nat} {node : PPN} (done : MapDone s t k tb vpn ppn flags w depth node) {a : Nat}
    (outside : a < (slot node (vpnIndex2 vpn)).toNat ∨ (slot node (vpnIndex2 vpn)).toNat + 8 ≤ a) :
    t.mem.readByte a = w.mem.readByte a := by
  rw [done.mem]
  exact Memory.readByte_writeLE_other _ _ _ _ _ outside

/-- A byte outside a frame is outside every slot of it. -/
theorem outside_slot_of_not_inFrame {n : PPN} {a : Nat} (outside : inFrame n a = false) (i : LevelIndex) :
    a < (slot n i).toNat ∨ (slot n i).toNat + 8 ≤ a := by
  by_contra inside
  have := slot_byte_inFrame n i a (by omega) (by omega)
  rw [outside] at this
  cases this

/-- Settles O54: the walk and the leaf write stay in the frames owned afterwards; on a complete path the leaf
write is all, and else the frames owned before lose the slot of the missing entry at most (R54). -/
theorem mapWritesOnlyItsOwnFrames : Obligations.MapWritesOnlyItsOwnFrames := by
  intro s t k tb vpn ppn flags rest sound running program table h
  obtain ⟨w, depth, node, done⟩ := mapDone_of_step sound running program table h
  obtain ⟨depth0, tree⟩ := sound.tree table done.owner
  have rootOwned := owned_sub table _ tree.rootOwned
  refine ⟨fun a outside => ?ownFrames, fun leaf found a outside => ?complete,
    fun missing f own a inside outside => ?missing0, fun n1 entry missing f own a inside outside => ?missing1⟩
  case ownFrames =>
    have after := table_set_same table _ t done.tables
    rw [done.readByte_outside_leaf (outside_slot_of_not_inFrame (outside _ node after done.nodeOwned) _)]
    exact done.keeps.bytes a fun f own => outside _ f after own
  case complete =>
    have walk := done.walk
    rw [findCreate_of_find (w := { mem := s.mem, frames := s.frames, added := [] }) found] at walk
    obtain ⟨rfl, rfl⟩ := Prod.mk.inj (Option.some.inj walk)
    exact done.readByte_outside_leaf outside
  case missing0 =>
    obtain ⟨kept, offLeaf⟩ :=
      (findCreate_old_byte done.walk rootOwned (owned_sub table f own) inside).1 missing outside
    exact (done.readByte_outside_leaf offLeaf).trans kept
  case missing1 =>
    obtain ⟨kept, offLeaf⟩ :=
      (findCreate_old_byte done.walk rootOwned (owned_sub table f own) inside).2 n1 entry missing outside
    exact (done.readByte_outside_leaf offLeaf).trans kept

end Sys2Proof.Machine
end

section
/-! The obligations of 20_memory.md and 70_reset_and_hazards.md on the other host lines: making and destroying a
table, views, the walk in terms of the block's operations, old translations, and the processor's A and D writes. -/

namespace Sys2Proof.Machine

/-! ## Making and destroying a table (R58 to R60) -/

/-- A construct line that gets a frame makes a table with that frame as its root. -/
theorem step_construct {s : State} {rest : List Line} (running : s.status = .running)
    (program : s.program = .construct :: rest) {f : PPN} {left : List PPN}
    (took : takeFrame s.ownedFrames s.frames = some (f, left)) :
    step s = .next { s.withProgram rest with
      mem := s.mem.zeroFrame f
      frames := left
      tables := s.tables ++ [some ({ root := f, owned := [f], kind := .owner } : Table)] }.finish := by
  rw [step_of_line running program]
  simp [runLine, hostConstruct, took, proceed]

theorem step_construct_exhausted {s : State} {rest : List Line} (running : s.status = .running)
    (program : s.program = .construct :: rest) (exhausted : takeFrame s.ownedFrames s.frames = none) :
    step s = .fault (.hostHalt .allocatorExhausted) := by
  rw [step_of_line running program]
  simp [runLine, hostConstruct, exhausted, proceed]

/-- Settles O48: the allocator passes over owned frames only, so it halts exactly where no other is offered; the
frame it hands out is zeroed and is all that changes (R59, R61; log entry 8). -/
theorem constructMakesAnEmptyTable : Obligations.ConstructMakesAnEmptyTable := by
  intro s rest running program
  refine ⟨fun owned => step_construct_exhausted running program (takeFrame_none.mpr owned),
    fun ⟨f, offered, free⟩ => ?_⟩
  have available : takeFrame s.ownedFrames s.frames ≠ none := fun h => free (takeFrame_none.mp h f offered)
  obtain ⟨⟨g, left⟩, took⟩ := Option.ne_none_iff_exists'.mp available
  obtain ⟨fresh, skipped, split, -⟩ := takeFrame_some took
  refine ⟨_, g, step_construct running program took, by simp [split], fresh, (append_table rfl).1,
    Memory.readPTE_zeroFrame_inside s.mem g, fun a outside => ?_, (append_table rfl).2⟩
  refine (Memory.readByte_zeroFrame s.mem g a).trans ?_
  rw [outside]
  rfl

/-- Settles O49: the token's low 44 bits are the root of the view that is added to the tables, and nothing else is
written; map and unmap look at the kind of the table first (R58, R110; log entry 13). -/
theorem viewsOwnNothingAndOnlyRead : Obligations.ViewsOwnNothingAndOnlyRead := by
  refine ⟨fun s token rest running program => ?made, fun s k tb vpn ppn flags table view => ?refused⟩
  case made =>
    have root : tokenRootPpn token = BitVec.ofNat 44 token.toNat :=
      BitVec.eq_of_toNat_eq (by rw [tokenRootPpn, lowBits_toNat, BitVec.toNat_ofNat])
    refine ⟨_, step_of_line running program, ?_, rfl, rfl, ?_⟩
    · rw [← root]
      exact (append_table rfl).1
    · show (s.tables ++ [some _]).flatMap ownedOf = s.tables.flatMap ownedOf
      simp [ownedOf]
  case refused => simp [hostMap, hostUnmap, table, view]

/-- Settles O57: a frame owned afterwards is one of another table, and tables share no frame (R60). -/
theorem destroyReleasesTheFrames : Obligations.DestroyReleasesTheFrames := by
  intro s k tb rest sound running program table
  have line : step s = .next { s.withProgram rest with tables := s.tables.set k none }.finish := by
    rw [step_of_line running program]
    simp [runLine, hostDestroy, table, proceed]
  have gone := table_set_same table none { s.withProgram rest with tables := s.tables.set k none }.finish rfl
  have others := fun k' (other : k' ≠ k) =>
    table_set_other other none { s.withProgram rest with tables := s.tables.set k none }.finish rfl
  refine ⟨_, line, gone, others, fun f => ?_⟩
  rw [mem_owned, mem_owned]
  constructor
  · rintro ⟨k', tb', table', own⟩
    have other : k' ≠ k := by
      rintro rfl
      rw [gone] at table'
      cases table'
    rw [others k' other] at table'
    exact ⟨⟨k', tb', table', own⟩, fun own' => disjoint_tables sound.frames table table' other own' own⟩
  · rintro ⟨⟨k', tb', table', own⟩, released⟩
    have other : k' ≠ k := by
      rintro rfl
      exact released (Option.some.inj (table'.symm.trans table) ▸ own)
    exact ⟨k', tb', (others k' other).trans table', own⟩

/-! ## The walk goes through the block's operations (R51, R53) -/

theorem eval_vpnIndex0 (config : Config) (vpn : VPN) (b : Word) :
    eval config { op := 0x12#5, a := vpn.setWidth 64, b := b } = .result ((vpnIndex0 vpn).setWidth 64) :=
  congrArg (fun p => Response.result (onBus (vpnIndex0 p))) (busVPN_onBus vpn)

theorem eval_vpnIndex1 (config : Config) (vpn : VPN) (b : Word) :
    eval config { op := 0x13#5, a := vpn.setWidth 64, b := b } = .result ((vpnIndex1 vpn).setWidth 64) :=
  congrArg (fun p => Response.result (onBus (vpnIndex1 p))) (busVPN_onBus vpn)

theorem eval_vpnIndex2 (config : Config) (vpn : VPN) (b : Word) :
    eval config { op := 0x14#5, a := vpn.setWidth 64, b := b } = .result ((vpnIndex2 vpn).setWidth 64) :=
  congrArg (fun p => Response.result (onBus (vpnIndex2 p))) (busVPN_onBus vpn)

theorem find_eq_bind (m : Memory) (root : PPN) (vpn : VPN) :
    find m root vpn = (enter m root (vpnIndex0 vpn)).bind fun n1 =>
      (enter m n1 (vpnIndex1 vpn)).bind fun n2 => some (slot n2 (vpnIndex2 vpn)) := by
  unfold find
  cases enter m root (vpnIndex0 vpn) with
  | none => rfl
  | some n1 =>
    simp only [Option.bind_some]
    cases enter m n1 (vpnIndex1 vpn) <;> rfl

theorem findCreate_eq_bind (taken : List PPN) (root : PPN) (vpn : VPN) (w : Walk) :
    findCreate taken root vpn w = (enterCreate taken root (vpnIndex0 vpn) w).bind fun p1 =>
      (enterCreate taken p1.1 (vpnIndex1 vpn) p1.2).bind fun p2 => some (slot p2.1 (vpnIndex2 vpn), p2.2) := by
  unfold findCreate
  cases enterCreate taken root (vpnIndex0 vpn) w with
  | none => rfl
  | some p1 =>
    simp only [Option.bind_some]
    cases enterCreate taken p1.1 (vpnIndex1 vpn) p1.2 <;> rfl

/-- Settles O44: the indices of the walk are the block's answers for the page number, and what a walk step reads
and stores are the block's answers for the entry and for the fresh frame (R51, R53, R182, R184). -/
theorem walkStepsUseTheBlock : Obligations.WalkStepsUseTheBlock := by
  refine ⟨fun vpn config => ?indices, fun m node i config => ?entry, fun taken node n i w valid => ?through,
    fun taken node f i w w' config missing created => ?installs⟩
  case indices =>
    exact ⟨vpnIndex0 vpn, vpnIndex1 vpn, vpnIndex2 vpn, eval_vpnIndex0 config vpn _, eval_vpnIndex1 config vpn _,
      eval_vpnIndex2 config vpn _, fun m root => find_eq_bind m root vpn,
      fun taken root w => findCreate_eq_bind taken root vpn w⟩
  case entry =>
    refine ⟨boolOnBus (pteIsValid (m.readPTE (slot node i))), ptePpn (m.readPTE (slot node i)), rfl, rfl, ?_⟩
    rw [enter, boolOnBus]
    cases pteIsValid (m.readPTE (slot node i)) <;> rfl
  case through => rw [enterCreate, valid]
  case installs =>
    obtain ⟨valid, -⟩ | ⟨-, -, -, mem, added⟩ := enterCreate_some created
    · rw [missing] at valid
      cases valid
    · refine ⟨pteNew f 0x01#8, ?_, mem, added⟩
      exact congrArg (fun p => Response.result (pteNew p 0x01#8)) (busPPN_onBus f)

/-! ## Old translations (R47, R235) -/

/-- The present translation is always admitted. -/
theorem translation_mem_admitted (s : State) (root : PPN) (vpn : VPN) :
    translation s.mem root vpn ∈ s.admitted root vpn := List.mem_cons_self

/-- An old translation is admitted for its page. -/
theorem old_mem_admitted {s : State} {e : Stale} (old : e ∈ s.stale) : e.old ∈ s.admitted e.root e.vpn :=
  List.mem_cons_of_mem _ (List.mem_map_of_mem (List.mem_filter.mpr ⟨old, by simp⟩))

/-- A map or unmap that goes on remembers the translation the page had before (R47). -/
theorem stale_of_map_or_unmap {s t : State} {k : Nat} {tb : Table} {vpn : VPN} {ppn : PPN} {flags : Flags}
    {rest : List Line} (running : s.status = .running)
    (program : s.program = .map k vpn ppn flags :: rest ∨ s.program = .unmap k vpn :: rest)
    (table : s.table? k = some tb) (h : step s = .next t) : t.stale = s.rememberStale tb.root vpn := by
  obtain program | program := program
  · rw [step_of_line running program] at h
    obtain ⟨_, done, rfl⟩ := proceed_next h
    obtain ⟨tb', leaf, w, table', -, -, -, rfl⟩ := hostMap_next done
    obtain rfl : tb = tb' := Option.some.inj (table.symm.trans table')
    rfl
  · rw [step_of_line running program] at h
    obtain ⟨_, done, rfl⟩ := proceed_next h
    obtain ⟨tb', leaf, table', -, -, -, rfl⟩ := hostUnmap_next done
    obtain rfl : tb = tb' := Option.some.inj (table.symm.trans table')
    rfl

/-- Settles O58: map and unmap put the old translation in the list, no line but an invalidation takes one out of
it, and an invalidation empties it (R47, R235; log entry 11). -/
theorem staleTranslationsLastUntilInvalidation : Obligations.StaleTranslationsLastUntilInvalidation := by
  refine ⟨fun s t k tb vpn ppn flags rest running program table h => ?remembers, fun s t h line e old => ?keeps,
    fun s rest root vpn running program => ?drops⟩
  case remembers =>
    have stale := stale_of_map_or_unmap running program table h
    have old : { root := tb.root, vpn := vpn, old := translation s.mem tb.root vpn } ∈ t.stale :=
      stale ▸ List.mem_cons_self
    have admitted := old_mem_admitted old
    exact ⟨old, admitted, translation_mem_admitted t tb.root vpn⟩
  case keeps =>
    have kept : e ∈ t.stale := by
      obtain ⟨-, l, rest, program, ⟨q, c, rfl⟩ | ⟨s1, done, rfl⟩⟩ := step_done h
      · exact old
      · exact done.stale (fun same => line rest (same ▸ program)) e old
    exact ⟨kept, old_mem_admitted kept⟩
  case drops => exact ⟨_, step_of_line running program, rfl, rfl, rfl⟩

/-- A bound value can be read back, so different values are bound to different states. -/
theorem State.bind_inj {s : State} {d : ResultName} {v v' : Value} (h : s.bind d v = s.bind d v') : v = v' := by
  have read := congrArg (fun t => State.lookup t d) h
  simpa only [State.lookup_bind_same, Option.some.injEq] using read

theorem entryValue_inj {x y : Option PTE} (h : entryValue x = entryValue y) : x = y := by
  cases x with
  | none =>
    cases y with
    | none => rfl
    | some e' => cases h
  | some e =>
    cases y with
    | none => cases h
    | some e' => rw [Value.word.inj h]

/-- The choices of the processor run through the admitted translations: every place of the list, and the present
translation past its end. -/
theorem mem_admitted_iff {s : State} {root : PPN} {vpn : VPN} {x : Option PTE} :
    x ∈ s.admitted root vpn ↔ ∃ pick, (s.admitted root vpn).getD pick (translation s.mem root vpn) = x := by
  rw [List.mem_iff_getElem?]
  constructor
  · rintro ⟨pick, at_pick⟩
    exact ⟨pick, by rw [List.getD_eq_getElem?_getD, at_pick, Option.getD_some]⟩
  · rintro ⟨pick, rfl⟩
    rw [List.getD_eq_getElem?_getD]
    cases at_pick : (s.admitted root vpn)[pick]? with
    | none => exact ⟨0, rfl⟩
    | some y => exact ⟨pick, at_pick⟩

/-- Settles O59: a use binds the translation at the place chosen, and the binding tells translations apart (R47,
R235; log entry 11). -/
theorem processorSeesExactlyAdmittedTranslations : Obligations.ProcessorSeesExactlyAdmittedTranslations := by
  intro s d k tb vpn x table
  have use : ∀ pick, processorUse d k vpn pick s =
      .next (s.bind d (entryValue ((s.admitted tb.root vpn).getD pick (translation s.mem tb.root vpn)))) := by
    intro pick
    simp only [processorUse, table]
  rw [mem_admitted_iff]
  constructor
  · rintro ⟨pick, rfl⟩
    exact ⟨pick, use pick⟩
  · rintro ⟨pick, seen⟩
    exact ⟨pick, entryValue_inj (State.bind_inj (Host.Outcome.next.inj ((use pick).symm.trans seen)))⟩

/-! ## The processor's A and D writes (R236) -/

section StatusLine

variable {s : State} {k : Nat} {tb : Table} {vpn : VPN} {accessed dirty : Bool} {rest : List Line}
  (running : s.status = .running) (program : s.program = .processorStatus k vpn accessed dirty :: rest)
  (table : s.table? k = some tb)

include running program table

theorem step_status_validLeaf {leaf : PA} (found : find s.mem tb.root vpn = some leaf)
    (valid : pteIsValid (s.mem.readPTE leaf) = true) :
    step s = .next { s.withProgram rest with
      mem := s.mem.writePTE leaf (withStatusBits (s.mem.readPTE leaf) accessed dirty) }.finish := by
  rw [step_of_line running program]
  simp [runLine, processorStatus, table, found, valid, proceed]

theorem step_status_noValidLeaf
    (noValid : ∀ leaf, find s.mem tb.root vpn = some leaf → pteIsValid (s.mem.readPTE leaf) = false) :
    step s = .next (s.withProgram rest).finish := by
  rw [step_of_line running program]
  cases found : find s.mem tb.root vpn with
  | none => simp [runLine, processorStatus, table, found, proceed]
  | some leaf => simp [runLine, processorStatus, table, found, noValid leaf found, proceed]

end StatusLine

/-- Walks end at the same leaf slots where all walk steps enter the same nodes. -/
theorem find_of_enter_eq {m m' : Memory} (same : ∀ n i, enter m' n i = enter m n i) (root : PPN) (vpn : VPN) :
    find m' root vpn = find m root vpn := by
  simp only [find, same]

/-- Settles O60: with a valid leaf the one write is of that leaf with bits 6 and 7 replaced, and as no walk step
changes, it is what the page translates to; without one there is no write (R236; log entry 12). -/
theorem statusWritesChangeOnlyAAndD : Obligations.StatusWritesChangeOnlyAAndD := by
  intro s k tb vpn accessed dirty rest wf running program table
  by_cases stored : ∃ leaf, find s.mem tb.root vpn = some leaf ∧ pteIsValid (s.mem.readPTE leaf) = true
  · obtain ⟨leaf, found, valid⟩ := stored
    refine ⟨_, step_status_validLeaf running program table found valid, rfl, rfl, rfl, rfl,
      fun leaf' e found' entry _ => ?written, fun invalid => ?absurd⟩
    case absurd =>
      rw [invalid _ (translation_of_find found)] at valid
      cases valid
    case written =>
      obtain rfl : leaf = leaf' := Option.some.inj (found.symm.trans found')
      obtain rfl : s.mem.readPTE leaf = e := Option.some.inj ((translation_of_find found).symm.trans entry)
      obtain ⟨n1, n2, -, -, rfl⟩ := find_some found
      refine ⟨⟨withStatusBits (s.mem.readPTE (slot n2 (vpnIndex2 vpn))) accessed dirty, ?leaf, ?_, ?_, ?_⟩,
        fun a outside => ?byte⟩
      case leaf =>
        have steps := fun n i => enter_writePTE_withStatusBits wf.1 n2 n (vpnIndex2 vpn) i accessed dirty
        have foundAfter := (find_of_enter_eq steps tb.root vpn).trans found
        exact (translation_of_find foundAfter).trans (congrArg some (Memory.readPTE_writePTE_same _ _ _ wf.1))
      case byte => exact Memory.readByte_writeLE_other _ _ _ _ _ outside
      · rw [getLsbD_withStatusBits, if_pos rfl]
      · rw [getLsbD_withStatusBits, if_neg (by decide), if_pos rfl]
      · intro i notA notD
        rw [getLsbD_withStatusBits, if_neg notA, if_neg notD]
  · have noValid : ∀ leaf, find s.mem tb.root vpn = some leaf → pteIsValid (s.mem.readPTE leaf) = false :=
      fun leaf found => Bool.eq_false_iff.mpr fun valid => stored ⟨leaf, found, valid⟩
    refine ⟨_, step_status_noValidLeaf running program table noValid, rfl, rfl, rfl, rfl,
      fun leaf e found entry valid => ?_, fun _ => rfl⟩
    obtain rfl : s.mem.readPTE leaf = e := Option.some.inj ((translation_of_find found).symm.trans entry)
    rw [noValid leaf found] at valid
    cases valid

end Sys2Proof.Machine
end

section
/-! The obligations of 30_encoding.md R84, R85 and 70_reset_and_hazards.md R239 on request lines: a step runs the
decoded request, what an answer and a fault leave, and the pseudo-instructions. -/

namespace Sys2Proof.Machine

/-! ## A request line (R84, R239) -/

/-- The block's answer to a request is `eval` of the build and the request, and no other response is its answer. -/
theorem exec_decode_eq_iff (q : Request) (s : State) (r : Response) :
    exec (decode q) s = .next (s.withResponse r) ↔ eval s.config q = r := by
  rw [exec_decode]
  constructor
  · intro answer
    exact Option.some.inj (congrArg State.response (Host.Outcome.next.inj answer))
  · rintro rfl
    rfl

section RequestLine

variable {s : State} {d : ResultName} {op : OpCode} {oa ob : Operand} {a b : Word} {rest : List Line}
  (running : s.status = .running) (program : s.program = .request d op oa ob :: rest)
  (atA : s.operand oa = .ok a) (atB : s.operand ob = .ok b)

include running program atA atB

theorem step_request : step s = stepRequest d { op := op, a := a, b := b } (s.withProgram rest) := by
  rw [step_of_line running program]
  simp only [runLine, State.resolve, State.operand_withProgram, atA, atB]

theorem step_request_answered {y : Word} (answer : Gives s op a b y) :
    step s = .next (((((s.withProgram rest).issue { op := op, a := a, b := b }).withResponse (.result y)).bind d
      (.word y)).finish) := by
  have evaluated := (exec_decode_eq_iff _ s _).mp answer
  rw [step_request running program atA atB, stepRequest_eq, State.withProgram_config, evaluated]

theorem step_request_faulted {c : FaultCode} (fault : Faults s op a b c) :
    step s = .next ((((s.withProgram rest).issue { op := op, a := a, b := b }).withResponse (.fault c)).fail c) := by
  have evaluated := (exec_decode_eq_iff _ s _).mp fault
  rw [step_request running program atA atB, stepRequest_eq, State.withProgram_config, evaluated]

end RequestLine

theorem step_failed {s : State} {c : FaultCode} (failed : s.status = .failed c) : step s = .fault (.halted c) := by
  simp only [step, failed]

/-- Settles O34: the answer is bound to the one name, and the status is decided by the lines left (R84, R239). -/
theorem answeredRequestsBindTheirResult : Obligations.AnsweredRequestsBindTheirResult := by
  intro s d op oa ob a b y rest running program atA atB answer
  refine ⟨_, step_request_answered running program atA atB answer, rfl, rfl, ?bound, fun x other => ?others, rfl,
    ?succeeded, ?running, rfl, rfl, rfl, rfl, rfl⟩
  case bound => rw [State.lookup_finish, State.lookup_bind_same]
  case others =>
    rw [State.lookup_finish, State.lookup_bind_other _ _ _ _ other]
    rfl
  case succeeded => cases rest <;> simp
  case running => cases rest <;> simp

/-- Settles O35: a faulted response marks the run failed and writes nothing else, and a failed run issues no line
(R207, R239; log entries 5 and 20). -/
theorem faultedResponsesEndTheRun : Obligations.FaultedResponsesEndTheRun := by
  intro s d op oa ob a b c rest running program atA atB fault
  refine ⟨_, step_request_faulted running program atA atB fault, rfl, rfl, ⟨c, rfl⟩, ?notSucceeded, rfl, rfl, rfl,
    rfl, rfl, rfl, step_failed rfl⟩
  exact fun succeeded => Status.noConfusion succeeded

/-- Settles O33: a request line is answered by `exec` of its decoded request, and a program that stands for a number
holds the one request of that number (R70, R84; log entries 1, 3 and 4). -/
theorem stepRunsTheDecodedRequest : Obligations.StepRunsTheDecodedRequest := by
  refine ⟨fun s d op oa ob a b rest running program atA atB => step_request running program atA atB,
    fun s nbits w i decoded => ?_⟩
  have fits : w % 2 ^ nbits < 2 ^ requestBits := by
    by_contra wide
    simp [decodeTableWord, decodeNumber, wide] at decoded
  have instr : decode (Request.ofNumber (w % 2 ^ nbits)) = i := by
    simpa [decodeTableWord, decodeNumber, fits] using decoded
  refine ⟨Request.ofNumber (w % 2 ^ nbits), instr, ?_⟩
  rw [step_request (s := s.withFetchWord nbits w) rfl rfl rfl rfl, ← instr]
  rfl

/-- Settles O38: the block's answer depends on the build alone, whose default stands in the state after reset (R230;
log entries 1 and 2). -/
theorem firstRequestAfterResetIsAnsweredAsAnyOther : Obligations.FirstRequestAfterResetIsAnsweredAsAnyOther :=
  ⟨rfl, rfl, rfl, fun q s sameBuild => answerDependsOnRequestAndBuildAlone q State.reset s sameBuild.symm⟩

/-! ## The pseudo-instructions (R85) -/

/-- A pseudo-instruction of well-formed operands is assembled into its expansion. -/
theorem assembleLine_pseudo {n : Nat} {p : Pseudo} {operands : List AsmOperand}
    (wf : operands.all AsmOperand.wf = true) :
    assembleLine { dest := n, head := .pseudo p, operands := operands } = expandPseudo n p operands := by
  rw [assembleLine, if_pos wf]

/-- Settles O39: with well-formed operands each line is its expansion, and the flag operand of PTE_LEAF is folded
with Valid where it is a literal and refused where it is a name (R85; log entry 15). -/
theorem pseudoInstructionsExpandAsListed : Obligations.PseudoInstructionsExpandAsListed := by
  intro n m x f w xWf fWf literal
  have one : [x].all AsmOperand.wf = true := by simp [xWf]
  have two : [x, f].all AsmOperand.wf = true := by simp [xWf, fWf]
  have nameWf : (AsmOperand.name m).wf = true := rfl
  have named : [x, .name m].all AsmOperand.wf = true := by simp [xWf, nameWf]
  refine ⟨fun k => rfl, fun k => rfl, fun fs => rfl, ?leaf, assembleLine_pseudo named, assembleLine_pseudo one,
    assembleLine_pseudo one, assembleLine_pseudo one, assembleLine_pseudo one⟩
  rw [assembleLine_pseudo two, expandPseudo, foldValid, literal]

end Sys2Proof.Machine
end

section
/-! The obligations of 40_address_masking.md on the narrowing operations: their bounds, that narrowing twice is
narrowing once, and the round trips with widening. -/

namespace Sys2Proof.Machine

/-- What the block evaluates a request to is what it gives. -/
theorem gives_of_eval {s : State} {op : OpCode} {a b y : Word}
    (value : eval s.config { op := op, a := a, b := b } = .result y) : Gives s op a b y :=
  (exec_decode_eq_iff _ s _).mpr value

theorem eval_of_gives {s : State} {op : OpCode} {a b y : Word} (gives : Gives s op a b y) :
    eval s.config { op := op, a := a, b := b } = .result y :=
  (exec_decode_eq_iff _ s _).mp gives

theorem gives_paFromWord (w b : Word) (s : State) : Gives s 0x00#5 w b (onBus (paFromWord w)) := gives_of_eval rfl
theorem gives_ppnFromWord (w b : Word) (s : State) : Gives s 0x01#5 w b (onBus (ppnFromWord w)) := gives_of_eval rfl
theorem gives_vaFromWord (w b : Word) (s : State) : Gives s 0x02#5 w b (onBus (vaFromWord w)) := gives_of_eval rfl
theorem gives_vpnFromWord (w b : Word) (s : State) : Gives s 0x03#5 w b (onBus (vpnFromWord w)) := gives_of_eval rfl

/-- A typed value on the result bus is below 2 to its width (R106). -/
theorem onBus_lt {n : Nat} (v : BitVec n) (fits : n ≤ 64) : (onBus v).toNat < 2 ^ n :=
  (onBus_toNat v fits).trans_lt v.isLt

/-- Settles O11: each result is a typed value of the width named, zero extended (R106). -/
theorem narrowResultsFitTheirWidths : Obligations.NarrowResultsFitTheirWidths := fun w b s =>
  ⟨_, _, _, _, gives_paFromWord w b s, onBus_lt _ (by decide), gives_ppnFromWord w b s, onBus_lt _ (by decide),
    gives_vpnFromWord w b s, onBus_lt _ (by decide), gives_vaFromWord w b s, onBus_lt _ (by decide)⟩

/-- An operation that answers the low `n` bits of its operand answers its own result with itself. -/
theorem gives_lowBits_idem {s : State} {op : OpCode} {b : Word} {n : Nat} (fits : n ≤ 64)
    (answer : ∀ w : Word, Gives s op w b (onBus (w.extractLsb' 0 n))) (w : Word) :
    ∃ y, Gives s op w b y ∧ Gives s op y b y := by
  have again := answer (onBus (w.extractLsb' 0 n))
  rw [extractLsb'_onBus _ fits] at again
  exact ⟨_, answer w, again⟩

/-- Settles O14: the four operations keep the low bits of their own width, and TOKEN_ROOT_PPN keeps the same 44 bits
as PPN_FROM_WORD (R109, R111). -/
theorem narrowingIsIdempotent : Obligations.NarrowingIsIdempotent := by
  intro w b s
  refine ⟨fun op narrowing => ?idempotent, fun y => ?token⟩
  case idempotent =>
    simp only [List.mem_cons, List.not_mem_nil, or_false] at narrowing
    obtain rfl | rfl | rfl | rfl := narrowing
    · exact gives_lowBits_idem (by decide) (fun w => gives_paFromWord w b s) w
    · exact gives_lowBits_idem (by decide) (fun w => gives_ppnFromWord w b s) w
    · exact gives_lowBits_idem (by decide) (fun w => gives_vaFromWord w b s) w
    · exact gives_lowBits_idem (by decide) (fun w => gives_vpnFromWord w b s) w
  case token =>
    have same : eval s.config { op := 0x05#5, a := w, b := b } = eval s.config { op := 0x01#5, a := w, b := b } := rfl
    rw [Gives, Gives, exec_decode_eq_iff, exec_decode_eq_iff, same]

/-! ## Narrowing and widening (R108) -/

theorem vaFromWord_vaToWord (v : VA) : vaFromWord (vaToWord v) = v := by
  apply BitVec.eq_of_getLsbD_eq
  intro i small
  rw [vaFromWord, BitVec.getLsbD_extractLsb', Nat.zero_add, getLsbD_vaToWord v (by omega), if_pos small,
    decide_eq_true small, Bool.true_and]

/-- Widening a narrowed word gives it back exactly when its bits above 38 equal bit 38. -/
theorem vaToWord_vaFromWord_eq_iff (w : Word) : vaToWord (vaFromWord w) = w ↔ Canonical w := by
  constructor
  · intro same
    rw [← same]
    exact canonical_vaToWord _
  · intro canonical
    have narrowed : ∀ i, i < 39 → (vaFromWord w).getLsbD i = w.getLsbD i := fun i small => by
      simp [vaFromWord, small]
    apply BitVec.eq_of_getLsbD_eq
    intro i inWord
    rw [getLsbD_vaToWord _ inWord]
    by_cases low : i < 39
    · rw [if_pos low, narrowed i low]
    · rw [if_neg low, narrowed 38 (by decide), canonical i (by omega) inWord]

/-- Settles O13: narrowing undoes widening bit by bit; a narrowed word widens to the canonical word with the same low
39 bits, which is the word itself exactly when that is canonical (R108). -/
theorem narrowWidenRoundTrips : Obligations.NarrowWidenRoundTrips := by
  intro b s
  refine ⟨fun v => ⟨vaToWord v, gives_vaToWord v b s, ?back⟩, fun w => ?widened⟩
  case back =>
    have narrowed := gives_vaFromWord (vaToWord v) b s
    rwa [vaFromWord_vaToWord] at narrowed
  case widened =>
    have sameLow : (vaFromWord (vaToWord (vaFromWord w))).toNat = (vaFromWord w).toNat := by rw [vaFromWord_vaToWord]
    rw [vaFromWord, vaFromWord, lowBits_toNat, lowBits_toNat] at sameLow
    exact ⟨_, _, gives_vaFromWord w b s, gives_vaToWord (vaFromWord w) b s, vaToWord_vaFromWord_eq_iff w,
      canonical_vaToWord _, sameLow⟩

end Sys2Proof.Machine
end

section
/-! The obligations of 41_page_arithmetic.md on the round trips between addresses and page numbers, on floor and
ceil, and on the indices of an address. -/

namespace Sys2Proof.Machine

/-! ## What the block gives for typed operands on their buses (R74) -/

theorem gives_paFloor (v : PA) (b : Word) (s : State) : Gives s 0x0a#5 (v.setWidth 64) b (onBus (paFloor v)) :=
  gives_of_eval (congrArg evalPaFloor (busPA_onBus v))

theorem gives_vaFloor (v : VA) (b : Word) (s : State) : Gives s 0x0e#5 (v.setWidth 64) b (onBus (vaFloor v)) :=
  gives_of_eval (congrArg evalVaFloor (busVA_onBus v))

theorem gives_ppnToPa (p : PPN) (b : Word) (s : State) : Gives s 0x0d#5 (p.setWidth 64) b (onBus (ppnToPa p)) :=
  gives_of_eval (congrArg evalPpnToPa (busPPN_onBus p))

theorem gives_vpnToVa (p : VPN) (b : Word) (s : State) : Gives s 0x11#5 (p.setWidth 64) b (onBus (vpnToVa p)) :=
  gives_of_eval (congrArg evalVpnToVa (busVPN_onBus p))

theorem evalPaToPpn_aligned {v : PA} (aligned : v.toNat % 4096 = 0) : evalPaToPpn v = .result (onBus (paFloor v)) := by
  rw [evalPaToPpn, alignedResponse_eq, paPageOffset_toNat, if_neg (not_not_intro aligned)]

theorem evalVaToVpn_aligned {v : VA} (aligned : v.toNat % 4096 = 0) : evalVaToVpn v = .result (onBus (vaFloor v)) := by
  rw [evalVaToVpn, alignedResponse_eq, vaPageOffset_toNat, if_neg (not_not_intro aligned)]

theorem gives_paToPpn {v : PA} (aligned : v.toNat % 4096 = 0) (b : Word) (s : State) :
    Gives s 0x0c#5 (v.setWidth 64) b (onBus (paFloor v)) :=
  gives_of_eval ((congrArg evalPaToPpn (busPA_onBus v)).trans (evalPaToPpn_aligned aligned))

theorem gives_vaToVpn {v : VA} (aligned : v.toNat % 4096 = 0) (b : Word) (s : State) :
    Gives s 0x10#5 (v.setWidth 64) b (onBus (vaFloor v)) :=
  gives_of_eval ((congrArg evalVaToVpn (busVA_onBus v)).trans (evalVaToVpn_aligned aligned))

/-! ## The round trips (R140, R146) -/

theorem ppnToPa_aligned (p : PPN) : (ppnToPa p).toNat % 4096 = 0 := by
  rw [ppnToPa_toNat, Nat.mul_mod_left]

theorem vpnToVa_aligned (p : VPN) : (vpnToVa p).toNat % 4096 = 0 := by
  rw [vpnToVa_toNat, Nat.mul_mod_left]

theorem paFloor_ppnToPa (p : PPN) : paFloor (ppnToPa p) = p :=
  BitVec.eq_of_toNat_eq (by rw [paFloor_toNat, ppnToPa_toNat, Nat.mul_div_cancel _ (by decide)])

theorem vaFloor_vpnToVa (p : VPN) : vaFloor (vpnToVa p) = p :=
  BitVec.eq_of_toNat_eq (by rw [vaFloor_toNat, vpnToVa_toNat, Nat.mul_div_cancel _ (by decide)])

theorem ppnToPa_paFloor {v : PA} (aligned : v.toNat % 4096 = 0) : ppnToPa (paFloor v) = v :=
  BitVec.eq_of_toNat_eq (by rw [ppnToPa_toNat, paFloor_toNat, Nat.div_mul_cancel (Nat.dvd_of_mod_eq_zero aligned)])

theorem vpnToVa_vaFloor {v : VA} (aligned : v.toNat % 4096 = 0) : vpnToVa (vaFloor v) = v :=
  BitVec.eq_of_toNat_eq (by rw [vpnToVa_toNat, vaFloor_toNat, Nat.div_mul_cancel (Nat.dvd_of_mod_eq_zero aligned)])

/-- Settles O21: dividing an aligned address by 4096 and multiplying back is exact, and the address of a page is
aligned (R140). -/
theorem physicalPageRoundTrip : Obligations.PhysicalPageRoundTrip := by
  intro b s
  refine ⟨fun v aligned => ⟨_, gives_paToPpn aligned b s, ?address⟩, fun p => ⟨_, gives_ppnToPa p b s, ?page⟩⟩
  case address =>
    have back := gives_ppnToPa (paFloor v) b s
    rwa [ppnToPa_paFloor aligned] at back
  case page =>
    have back := gives_paToPpn (ppnToPa_aligned p) b s
    rwa [paFloor_ppnToPa] at back

/-- Settles O22: the same for virtual addresses in stored form (R146). -/
theorem virtualPageRoundTrip : Obligations.VirtualPageRoundTrip := by
  intro b s
  refine ⟨fun p => ⟨_, gives_vpnToVa p b s, ?page⟩, fun v aligned => ⟨_, gives_vaToVpn aligned b s, ?address⟩⟩
  case page =>
    have back := gives_vaToVpn (vpnToVa_aligned p) b s
    rwa [vaFloor_vpnToVa] at back
  case address =>
    have back := gives_vpnToVa (vaFloor v) b s
    rwa [vpnToVa_vaFloor aligned] at back

/-! ## Floor and ceil (R141) -/

/-- A ceil of a non-zero address that answers a result answers the quotient rounded up. -/
theorem ceilResponse_result_toNat {config : Config} {pages c : Word} {n : Nat} {v : BitVec n} (fits : n ≤ 56)
    (nonzero : v ≠ 0#n) (answer : ceilResponse config pages (onBus v) = .result c) :
    c.toNat = (v.toNat + 4095) / 4096 := by
  have value : (onBus v).toNat = v.toNat := onBus_toNat v (by omega)
  have zeroNumber : v = 0#n ↔ v.toNat = 0 := BitVec.toNat_eq
  have onBusNonzero : onBus v ≠ 0#64 := fun zero =>
    nonzero (zeroNumber.mpr (value.symm.trans (congrArg BitVec.toNat zero)))
  have small : (onBus v).toNat ≤ 2 ^ 56 := value ▸ v.isLt.le.trans (Nat.pow_le_pow_right (by decide) fits)
  rw [ceilResponse_nonzero _ _ _ onBusNonzero] at answer
  split at answer
  · cases answer
  · rw [← Response.result.inj answer, ceilQuotient_toNat _ onBusNonzero small, value]

/-- Rounding down and up differ by one exactly off the multiples of 4096. -/
theorem floor_ceil_relations {v : Nat} {f c : Word} (floor : f.toNat = v / 4096) (ceil : c.toNat = (v + 4095) / 4096) :
    f.toNat ≤ c.toNat ∧ c.toNat ≤ f.toNat + 1 ∧ (c = f ↔ v % 4096 = 0) := by
  rw [← BitVec.toNat_inj, floor, ceil]
  omega

/-- Settles O23: floor and ceil are the quotient by 4096 rounded down and up, and an aligned address passes the
conversion with the page number of floor (R141). -/
theorem floorAndCeilRelations : Obligations.FloorAndCeilRelations := by
  intro b s
  refine ⟨fun v c nonzero answer => ⟨_, gives_paFloor v b s, ?pa⟩,
    fun v c nonzero answer => ⟨_, gives_vaFloor v b s, ?va⟩,
    fun v aligned => ⟨_, gives_paFloor v b s, gives_paToPpn aligned b s⟩,
    fun v aligned => ⟨_, gives_vaFloor v b s, gives_vaToVpn aligned b s⟩⟩
  case pa =>
    have ceil : evalPaCeil s.config v = .result c :=
      (congrArg (evalPaCeil s.config) (busPA_onBus v)).symm.trans (eval_of_gives answer)
    exact floor_ceil_relations ((onBus_toNat _ (by decide)).trans (paFloor_toNat v))
      (ceilResponse_result_toNat (by decide) nonzero ceil)
  case va =>
    have ceil : evalVaCeil s.config v = .result c :=
      (congrArg (evalVaCeil s.config) (busVA_onBus v)).symm.trans (eval_of_gives answer)
    exact floor_ceil_relations ((onBus_toNat _ (by decide)).trans (vaFloor_toNat v))
      (ceilResponse_result_toNat (by decide) nonzero ceil)

/-! ## The indices of an address (R154) -/

/-- A slice of the page number of an address is the slice of the address 12 bits higher. -/
theorem vaFloor_slice (v : VA) {start : Nat} (inside : start + 9 ≤ 27) :
    (vaFloor v).extractLsb' start 9 = v.extractLsb' (12 + start) 9 := by
  apply BitVec.eq_of_getLsbD_eq
  intro i small
  simp only [vaFloor, BitVec.getLsbD_extractLsb', decide_eq_true (show start + i < 27 by omega), Bool.true_and,
    Nat.add_assoc]

theorem vpnIndex0_vaFloor (v : VA) : vpnIndex0 (vaFloor v) = v.extractLsb' 30 9 := vaFloor_slice v (by decide)
theorem vpnIndex1_vaFloor (v : VA) : vpnIndex1 (vaFloor v) = v.extractLsb' 21 9 := vaFloor_slice v (by decide)
theorem vpnIndex2_vaFloor (v : VA) : vpnIndex2 (vaFloor v) = v.extractLsb' 12 9 := vaFloor_slice v (by decide)

/-- Settles O25: the three indices of VA_FLOOR are slices of the page number, so of the address (R154). -/
theorem indicesOfAnAddress : Obligations.IndicesOfAnAddress := by
  intro v b s
  rw [← vpnIndex0_vaFloor, ← vpnIndex1_vaFloor, ← vpnIndex2_vaFloor]
  exact ⟨_, gives_vaFloor v b s, gives_vpnIndex0 (vaFloor v) b s, gives_vpnIndex1 (vaFloor v) b s,
    gives_vpnIndex2 (vaFloor v) b s⟩

end Sys2Proof.Machine
end

section
/-! The obligations of 42_pte_codec.md on packing what was unpacked, on injectivity and validity, and on the flag
bits. -/

namespace Sys2Proof.Machine

/-! ## Packing what was unpacked (R186) -/

/-- A packed entry holds the flags in bits 7:0, zeros in bits 9:8 and the page number from bit 10 on (R171, R180). -/
theorem getLsbD_pteNew (p : PPN) (f : Flags) (i : Nat) :
    (pteNew p f).getLsbD i = if i < 10 then f.getLsbD i else p.getLsbD (i - 10) := by
  rw [pteNew, BitVec.getLsbD_or, BitVec.getLsbD_shiftLeft, BitVec.getLsbD_setWidth, BitVec.getLsbD_setWidth]
  by_cases low : i < 10
  · simp [low, show i < 64 by omega]
  · have noFlag : f.getLsbD i = false := BitVec.getLsbD_of_ge f i (by omega)
    by_cases wide : i < 64
    · simp [low, noFlag, wide, show i - 10 < 64 by omega]
    · have noPage : p.getLsbD (i - 10) = false := BitVec.getLsbD_of_ge p _ (by omega)
      simp [low, wide, noFlag, noPage]

/-- The mask of R186 is 0 at bits 63:54 and 9:8 and 1 elsewhere. -/
theorem getLsbD_namedBits : ∀ i, i < 64 →
    (0x003FFFFFFFFFFCFF#64).getLsbD i = decide ¬(54 ≤ i ∨ i = 8 ∨ i = 9) := by
  decide

theorem pteNew_of_unpacked (e : PTE) : pteNew (ptePpn e) (pteFlags e) = e &&& 0x003FFFFFFFFFFCFF#64 := by
  apply BitVec.eq_of_getLsbD_eq
  intro i inWord
  rw [getLsbD_pteNew, BitVec.getLsbD_and, getLsbD_namedBits i inWord, pteFlags, ptePpn, BitVec.getLsbD_extractLsb',
    BitVec.getLsbD_extractLsb']
  by_cases low : i < 10
  · have named : (¬(54 ≤ i ∨ i = 8 ∨ i = 9)) ↔ i < 8 := by omega
    rw [if_pos low, Nat.zero_add, decide_eq_decide.mpr named, Bool.and_comm]
  · have named : (¬(54 ≤ i ∨ i = 8 ∨ i = 9)) ↔ i - 10 < 44 := by omega
    rw [if_neg low, Nat.add_sub_cancel' (by omega), decide_eq_decide.mpr named, Bool.and_comm]

/-- Masking keeps an entry exactly when its unnamed bits are 0. -/
theorem and_namedBits_eq_self_iff (e : PTE) :
    e &&& 0x003FFFFFFFFFFCFF#64 = e ↔ ∀ i, i < 64 → (54 ≤ i ∨ i = 8 ∨ i = 9) → e.getLsbD i = false := by
  constructor
  · intro same i inWord unnamed
    rw [← same, BitVec.getLsbD_and, getLsbD_namedBits i inWord, decide_eq_false (not_not_intro unnamed), Bool.and_false]
  · intro clear
    apply BitVec.eq_of_getLsbD_eq
    intro i inWord
    rw [BitVec.getLsbD_and, getLsbD_namedBits i inWord]
    by_cases unnamed : 54 ≤ i ∨ i = 8 ∨ i = 9
    · rw [clear i inWord unnamed, Bool.false_and]
    · rw [decide_eq_true unnamed, Bool.and_true]

/-- Settles O29: the fields taken out of an entry and packed again are its named bits (R186). -/
theorem unpackedEntriesPack : Obligations.UnpackedEntriesPack := by
  intro e b s
  refine ⟨_, _, _, gives_ptePpn e b s, gives_pteFlags e b s, gives_pteNew (ptePpn e) (pteFlags e) s,
    pteNew_of_unpacked e, ?_⟩
  rw [pteNew_of_unpacked]
  exact and_namedBits_eq_self_iff e

/-! ## Injectivity and validity (R187, R188) -/

/-- The block has one result for a request. -/
theorem gives_unique {s : State} {op : OpCode} {a b y y' : Word} (gives : Gives s op a b y)
    (gives' : Gives s op a b y') : y = y' :=
  Response.result.inj ((eval_of_gives gives).symm.trans (eval_of_gives gives'))

/-- Settles O31: the packed word is `pteNew` of each pair, and its two fields give the pair back (R188). -/
theorem pteNewIsInjective : Obligations.PteNewIsInjective := by
  intro p p' f f' e s s' gives gives'
  have packed : e = pteNew p f := gives_unique gives (gives_pteNew p f s)
  have packed' : e = pteNew p' f' := gives_unique gives' (gives_pteNew p' f' s')
  constructor
  · rw [← ptePpn_pteNew p f, ← packed, packed', ptePpn_pteNew]
  · rw [← pteFlags_pteNew p f, ← packed, packed', pteFlags_pteNew]

/-- Settles O30: the Valid flag of a packed entry is bit 0 of its flags, and packing zeros gives the empty sentinel
(R187). -/
theorem packedValidityIsTheVFlag : Obligations.PackedValidityIsTheVFlag := by
  intro p f b s
  refine ⟨⟨pteNew p f, gives_pteNew p f s, ?valid⟩,
    ⟨pteEmpty, gives_of_eval rfl, gives_pteIsValid pteEmpty b s, ?zeros⟩⟩
  case valid => simpa only [pteIsValid_pteNew, boolOnBus] using gives_pteIsValid (pteNew p f) b s
  case zeros => exact gives_pteNew 0#44 0#8 s

/-! ## The flag bits (R170) -/

/-- The mask of one flag has its own bit and no other flag's. -/
theorem getLsbD_flagMask (g f : Flag) : (flagMask g).getLsbD (flagBit f) = decide (f = g) := by
  cases g <;> cases f <;> rfl

/-- Settles O32: the masks are evaluated; a flag set is the OR of the masks of its flags, by induction on the list
(R170; log entry 10). -/
theorem flagBitsFollowTheTable : Obligations.FlagBitsFollowTheTable := by
  refine ⟨rfl, rfl, rfl, rfl, rfl, rfl, rfl, rfl, fun fs f => ?_⟩
  induction fs with
  | nil => simp [flagSet]
  | cons g rest ih =>
    have joined : flagSet (g :: rest) = flagMask g ||| flagSet rest := rfl
    rw [joined, BitVec.getLsbD_or, getLsbD_flagMask, Bool.or_eq_true, decide_eq_true_eq, ih, List.mem_cons]

end Sys2Proof.Machine
end
